-- ==== Sys2Proof/Word.lean ====
section
/-! DEFINITION. The word types of the vdl120 codec block (spec/00_scope.md rules R6 and R7).
A bit vector is used only for what the spec treats as bits: bytes of MEM, descriptor words, the two
16-bit formats, the response fields. Addresses, counts and magnitudes are `Nat` once computed with
(rule R13: all arithmetic is on unbounded integers). -/

namespace Sys2Proof

/-- One byte (R6, BYTE_W = 8). -/
abbrev Byte := BitVec 8

/-- A 16-bit pattern: a TruncatedFloat16Value or a CrypticInt16Value (R6, T16_W = C16_W = 16). -/
abbrev Half := BitVec 16

/-- A 32-bit pattern: a descriptor word, a response's result, a Float32Value (R6, F32_W = 32). -/
abbrev Word := BitVec 32

end Sys2Proof
end

