-- ==== Sys2Proof/Config.lean ====
section
/-! DEFINITION. What an implementation fixes and what the spec leaves open: the parameters of
spec/00_scope.md rule R6 and the free values of spec/93_implementation_defined.md (U6, U7, U13, U19).
A free value is an opaque constant: nothing can be proved about which value it is. -/

namespace Sys2Proof

/-- The two byte orders (R8). HOST_ORDER (R6, R34) ranges over this type: it is a property of the host
and no field of the machine, so statements quantify over it. -/
inductive ByteOrder where
  | littleEndian
  | bigEndian
  deriving DecidableEq, Repr

/-- I2F_ROUNDING, the rounding of FROMINT's integer-to-Float32 step (R6, R141, D19). The spec gives
the algorithm of its default and names no other value of the parameter; `other` is any rounding that
takes one of the two neighbouring Float32 values, chosen by the free `Config.otherRoundsUp`. -/
inductive Rounding where
  | nearestTiesToEven
  | other
  deriving DecidableEq, Repr

/-- The parameters of the step relation (R6, R34). They are fixed for a machine: no step writes them. -/
structure Params where
  /-- MEM_BYTES - 1, the last address of MEM: 32 bits give exactly `0 < MEM_BYTES <= 2^32` (R6, D6). -/
  memLast  : Word
  /-- INT_W, the width of the signed integers (R6, D18); legal from 10 to 32. -/
  intW     : Nat
  /-- I2F_ROUNDING (R6, D19). -/
  rounding : Rounding
  deriving DecidableEq, Repr

namespace Config

/-- CIC_BIAS (R6): exponent field = highest-set-bit position + 127. -/
abbrev cicBias : Nat := 127

/-- CIC_MAX_MAG (R6): the largest magnitude CENC accepts. -/
abbrev cicMaxMag : Nat := 255

/-- PROBE_CONST (R6, D10): the known 16-bit value whose memory image INIT inspects. -/
abbrev probeConst : Half := 0x0001#16

/-- The default of INT_W (R6, D18). -/
abbrev defaultIntW : Nat := 32

/-- FREE VALUE (U19): MEM_BYTES - 1 of the machine that starts at reset; the spec leaves the size open. -/
opaque memLast : Word

/-- FREE VALUE (U7, R32, R248): what address `a` holds from reset until something writes it. -/
opaque unwrittenByte : Nat → Byte

/-- FREE VALUE (U6, R72): the result field of the response to the `n`-th faulting command. -/
opaque freeResult : Nat → Word

/-- FREE VALUE (U13, D19): whether a rounding other than the default takes the larger magnitude, given
the sign, the kept bits `q`, the dropped bits `r` (not zero) and how many bits were dropped. -/
opaque otherRoundsUp : Bool → Nat → Nat → Nat → Bool

end Config

end Sys2Proof
end

