-- ==== Sys2Proof/Syntax.lean ====
section
/-! DEFINITION. The nine commands of spec/30_encoding.md rule R74, one constructor per row of
spec/opcode_table.json, each with its operands at the width rule R75 takes them; and the six-word command
descriptor of rule R71 they are encoded in. The block has no instruction but these. -/

namespace Sys2Proof

/-- A command with its operands (R74, R75). -/
inductive Instr where
  /-- INIT, format P: the host's image of PROBE_CONST, all 32 bits compared (R100). -/
  | init (probe : Word)
  /-- NARROW, format B (R110). -/
  | narrow (src srcLen dst dstLen count : Word)
  /-- WIDEN, format B (R114). -/
  | widen (src srcLen dst dstLen count : Word)
  /-- NARROW1, format S: a Float32Value as a logical bit pattern (R118). -/
  | narrow1 (f : Word)
  /-- WIDEN1, format S: a TruncatedFloat16Value, the low half of W1 (R120). -/
  | widen1 (h : Half)
  /-- FROMINT, format S: the word whose low INT_W bits are the signed operand (R140, R6). -/
  | fromint (i : Word)
  /-- TOINT, format S: a TruncatedFloat16Value, the low half of W1 (R145). -/
  | toint (h : Half)
  /-- CENC, format S: the word whose low INT_W bits are the signed operand (R160, R6). -/
  | cenc (n : Word)
  /-- CDEC, format S: a CrypticInt16Value, byte 0 in bits 15:8 (R165). -/
  | cdec (v : Half)
  deriving DecidableEq, Repr

/-- The command descriptor: six 32-bit values W0 to W5 on the command interface (R71, R41). -/
structure Descriptor where
  w0 : Word
  w1 : Word
  w2 : Word
  w3 : Word
  w4 : Word
  w5 : Word
  deriving DecidableEq, Repr

/-- Why a descriptor is illegal (R76). -/
inductive Illegal where
  /-- `W0[31:8] != 0`. -/
  | nonzeroHighBits
  /-- Opcode 0x00 or 0x0A .. 0xFF. -/
  | reservedOpcode (opcode : Byte)
  deriving DecidableEq, Repr

/-- What decoding answers: a command with its operands, or illegal (R77). -/
inductive Decoded where
  | command (i : Instr)
  | illegal (why : Illegal)
  deriving DecidableEq, Repr

/-- The mnemonics of the assembler (R79) and the pseudo-commands (R80). -/
inductive Mnemonic where
  | init | narrow | widen | narrow1 | widen1 | fromint | toint | cenc | cdec
  | initLE | initBE | nop | float32ToBfloat16 | bfloat16ToFloat32 | num2bin | bin2num
  deriving DecidableEq, Repr

end Sys2Proof
end

