-- ==== Sys2Proof/WellFormed.lean ====
section
/-! DEFINITION. The checks on what the outside hands the model: a descriptor's legality
(spec/30_encoding.md rule R76), an assembler's duty on unused words (rule R71), the legal range of INT_W
(spec/00_scope.md rule R6). An `Instr` carries each operand at the width rule R75 gives it and every value
of that width is an operand the command accepts (rules R27, R28, R75), so no `Instr` is ill-formed. -/

namespace Sys2Proof

/-- Every operand of every command may have every value (R75): the widths are in the constructors' types. -/
def Instr.wellFormed : Instr → Bool
  | .init _ => true
  | .narrow _ _ _ _ _ => true
  | .widen _ _ _ _ _ => true
  | .narrow1 _ => true
  | .widen1 _ => true
  | .fromint _ => true
  | .toint _ => true
  | .cenc _ => true
  | .cdec _ => true

/-- R76: legal when bits 31:8 of W0 are zero and the opcode is 0x01 .. 0x09, that is 1 <= W0 <= 9. -/
def Descriptor.legal (d : Descriptor) : Bool :=
  decide (1 ≤ d.w0.toNat) && decide (d.w0.toNat ≤ 9)

/-- R71, R77: the words and bits a legal descriptor's command ignores are zero, as an assembler writes
them. Format B (opcodes 2, 3) ignores nothing; WIDEN1, TOINT and CDEC also ignore `W1[31:16]`. -/
def Descriptor.assembled (d : Descriptor) : Bool :=
  let bulk := decide (d.w0 = 2#32) || decide (d.w0 = 3#32)
  let half := decide (d.w0 = 5#32) || decide (d.w0 = 7#32) || decide (d.w0 = 9#32)
  (bulk || (decide (d.w2 = 0#32) && decide (d.w3 = 0#32) && decide (d.w4 = 0#32) && decide (d.w5 = 0#32))) &&
    (!half || decide (d.w1.toNat < 65536))

/-- R6: "any INT_W >= 10 holds every CIC value", and INT_W <= 32 so that it fits the descriptor word. -/
def Params.wellFormed (p : Params) : Bool :=
  decide (10 ≤ p.intW) && decide (p.intW ≤ 32)

end Sys2Proof
end

