-- ==== Sys2Proof/Decode.lean ====
section
/-! DEFINITION. Decoding a descriptor (spec/30_encoding.md rules R71 to R77), total on all six words,
and after it the encoder (rules R71, R74, R79), the descriptor an opcode-table word stands for, and the
ignored bits of rule R77. MODE takes no part in decoding (rule R78). -/

namespace Sys2Proof

/-- `W0[7:0]`, the opcode field (R71). -/
def Descriptor.opcode (d : Descriptor) : Byte := d.w0.extractLsb' 0 8

/-- The low half of W1, the 16-bit operand of WIDEN1, TOINT and CDEC (R75). -/
def Descriptor.half (d : Descriptor) : Half := d.w1.extractLsb' 0 16

/-- R74, R75, R76: the whole of W0 is compared; what no row matches is illegal by name. -/
def decode (d : Descriptor) : Decoded :=
  if d.w0.extractLsb' 8 24 ≠ 0#24 then .illegal .nonzeroHighBits
  else match d.opcode.toNat with
    | 0x01 => .command (.init d.w1)
    | 0x02 => .command (.narrow d.w1 d.w2 d.w3 d.w4 d.w5)
    | 0x03 => .command (.widen d.w1 d.w2 d.w3 d.w4 d.w5)
    | 0x04 => .command (.narrow1 d.w1)
    | 0x05 => .command (.widen1 d.half)
    | 0x06 => .command (.fromint d.w1)
    | 0x07 => .command (.toint d.half)
    | 0x08 => .command (.cenc d.w1)
    | 0x09 => .command (.cdec d.half)
    | _ => .illegal (.reservedOpcode d.opcode)

/-- A format P or S descriptor: the unused words are assembled as 0 (R71, R79). -/
def scalarDescriptor (opcode a : Word) : Descriptor :=
  { w0 := opcode, w1 := a, w2 := 0#32, w3 := 0#32, w4 := 0#32, w5 := 0#32 }

/-- R74, R79: the six words of a command. -/
def encode : Instr → Descriptor
  | .init probe => scalarDescriptor 0x01#32 probe
  | .narrow src srcLen dst dstLen count =>
    { w0 := 0x02#32, w1 := src, w2 := srcLen, w3 := dst, w4 := dstLen, w5 := count }
  | .widen src srcLen dst dstLen count =>
    { w0 := 0x03#32, w1 := src, w2 := srcLen, w3 := dst, w4 := dstLen, w5 := count }
  | .narrow1 f => scalarDescriptor 0x04#32 f
  | .widen1 h => scalarDescriptor 0x05#32 (h.setWidth 32)
  | .fromint i => scalarDescriptor 0x06#32 i
  | .toint h => scalarDescriptor 0x07#32 (h.setWidth 32)
  | .cenc n => scalarDescriptor 0x08#32 n
  | .cdec v => scalarDescriptor 0x09#32 (v.setWidth 32)

/-- R77: `d` with every bit its command ignores set to zero (W2 to W5 of formats P and S, `W1[31:16]` of
WIDEN1, TOINT and CDEC). An illegal descriptor is left as it is. -/
def Descriptor.withoutIgnored (d : Descriptor) : Descriptor :=
  if d.w0 = 0x01#32 ∨ d.w0 = 0x04#32 ∨ d.w0 = 0x06#32 ∨ d.w0 = 0x08#32 then
    { d with w2 := 0#32, w3 := 0#32, w4 := 0#32, w5 := 0#32 }
  else if d.w0 = 0x05#32 ∨ d.w0 = 0x07#32 ∨ d.w0 = 0x09#32 then
    { d with w1 := d.w1 &&& 0x0000FFFF#32, w2 := 0#32, w3 := 0#32, w4 := 0#32, w5 := 0#32 }
  else d

/-- The descriptor whose bits, W0's bit 0 first, are `w` cut to `nbits`: W0 is bits 31:0, W1 bits 63:32
and so on; bits above `nbits` are 0. The words are values on the command interface (R41), so no byte
order enters. -/
def Descriptor.ofTableWord (nbits w : Nat) : Descriptor :=
  let v := w % 2 ^ nbits
  { w0 := BitVec.ofNat 32 v
    w1 := BitVec.ofNat 32 (v >>> 32)
    w2 := BitVec.ofNat 32 (v >>> 64)
    w3 := BitVec.ofNat 32 (v >>> 96)
    w4 := BitVec.ofNat 32 (v >>> 128)
    w5 := BitVec.ofNat 32 (v >>> 160) }

/-- The command the decoder reads from an opcode-table word. -/
def decodeTableWord (nbits w : Nat) : Option Instr :=
  match decode (Descriptor.ofTableWord nbits w) with
  | .command i => some i
  | .illegal _ => none

end Sys2Proof
end

