-- ==== Sys2Proof/Machine/State.lean ====
section
/-! DEFINITION. The state of the block (spec/10_state.md): MODE, FLT and MEM, with the response of the
last command (spec/30_encoding.md rule R72) and, as the model's own fields, the host's stream of moves,
the counter of free results and the parameters. STATUS (rule R23) is computed from MODE and FLT
(Machine/Flags.lean). There is no register file and no program counter (rules R24, R25). -/

namespace Sys2Proof.Machine

/-- MODE, exactly three values (R20). -/
inductive Mode where
  | uninit
  | littleEndian
  | bigEndian
  deriving DecidableEq, Repr

/-- The fault causes of R201, the codes 0x01 to 0x0B. A command that raises one ENDS WITH A RESPONSE and
the block goes on (R205): none of them stops the machine. -/
inductive Cause where
  | illegalCommand
  | notInitialized
  | alreadyInitialized
  | probeInvalid
  | countExceedsBuffer
  | misaligned
  | addressRange
  | bufferOverlap
  | encodeRange
  | invalidEncoding
  | intConvRange
  deriving DecidableEq, Repr

/-- MEM as the list of the bytes written since reset, addresses strictly rising (`Memory.wf`). -/
abbrev Memory := List Host.Cell

/-- The response of a command (R72). -/
structure Response where
  /-- 0x00 = OK, else the code of the fault (R201). -/
  status : Byte
  /-- The command's result, zero-extended; unspecified when `status` is not 0. -/
  result : Word
  /-- STATUS sampled after the command's effect (R23). -/
  stat   : Byte
  deriving DecidableEq, Repr

/-- One move of the host at the block (R30, R70): it presents a descriptor, or, between two commands,
writes one byte of MEM. -/
inductive HostMove where
  | issue (d : Descriptor)
  | store (a : Word) (b : Byte)
  deriving DecidableEq, Repr

/-- The state of the block. -/
structure State where
  /-- MODE (R20). -/
  mode     : Mode
  /-- FLT, the sticky fault flag (R22). -/
  flt      : Bool
  /-- MEM (R30). -/
  mem      : Memory
  /-- The response of the last command since reset (R72); `none`: no command has been performed yet. -/
  response : Option Response
  /-- MODEL'S OWN: the host's moves still to come, in order (R25: the position in the list is the host's). -/
  inbox    : List HostMove
  /-- MODEL'S OWN: how many free results have been drawn (U6). -/
  draws    : Nat
  /-- MODEL'S OWN: the parameters of the step relation (R34); no step writes them. -/
  params   : Params
  deriving DecidableEq, Repr

/-- What stops the machine. A precondition failure of a command is not here: it is a `Cause`, reported in
a response. -/
inductive Fault where
  /-- SAFE. Raised by `step` alone, when the HOST stores to an address that does not exist
  (address >= MEM_BYTES, R50). No command raises it: admission (R51) keeps every command inside MEM. -/
  | noSuchAddress (a : Word)
  deriving DecidableEq, Repr

/-- What the model gives no meaning to. -/
inductive Refusal where
  /-- SAFE. An instruction without a meaning yet; no arm of `exec` answers it. -/
  | notModelled (mnemonic : String)
  deriving DecidableEq, Repr

/-- After the reset event (R32, R240): MODE = Uninit, FLT = 0, nothing of MEM written. No response has been
given and the host has presented nothing; MEM_BYTES is free, INT_W and I2F_ROUNDING are at the
spec's defaults (R6). -/
def State.reset : State :=
  { mode := .uninit
    flt := false
    mem := []
    response := none
    inbox := []
    draws := 0
    params := { memLast := Config.memLast, intW := Config.defaultIntW, rounding := .nearestTiesToEven } }

end Sys2Proof.Machine
end

