-- ==== Sys2Proof/Machine/Flags.lean ====
section
/-! DEFINITION. The flag and status computations: the codes of the faults (spec/60_exceptions.md rule
R201) and the STATUS register (spec/10_state.md rule R23). The block has no other flag (rule R26). -/

namespace Sys2Proof.Machine

/-- The status code of a fault (R201); 0x00 is OK and no cause has it. -/
def Cause.code : Cause → Byte
  | .illegalCommand     => 0x01#8
  | .notInitialized     => 0x02#8
  | .alreadyInitialized => 0x03#8
  | .probeInvalid       => 0x04#8
  | .countExceedsBuffer => 0x05#8
  | .misaligned         => 0x06#8
  | .addressRange       => 0x07#8
  | .bufferOverlap      => 0x08#8
  | .encodeRange        => 0x09#8
  | .invalidEncoding    => 0x0A#8
  | .intConvRange       => 0x0B#8

/-- STATUS[1:0] (R23); 0b11 never occurs. -/
def Mode.bits : Mode → BitVec 2
  | .uninit       => 0b00#2
  | .littleEndian => 0b01#2
  | .bigEndian    => 0b10#2

/-- The byte order MODE records, if any (R20). -/
def Mode.order : Mode → Option ByteOrder
  | .uninit       => none
  | .littleEndian => some .littleEndian
  | .bigEndian    => some .bigEndian

/-- The MODE that records a byte order. -/
def Mode.ofOrder : ByteOrder → Mode
  | .littleEndian => .littleEndian
  | .bigEndian    => .bigEndian

/-- The STATUS register (R23): MODE in bits 1:0, FLT in bit 2, bits 7:3 hardwired 0. -/
def State.stat (s : State) : Byte := 0#5 ++ BitVec.ofBool s.flt ++ s.mode.bits

end Sys2Proof.Machine
end

