-- ==== Sys2Proof/Machine/Operands.lean ====
section
/-! DEFINITION. Operands and formats: signed operands and results (spec/00_scope.md rules R9, R13, R75),
byte images (rule R8), the fields of the three data formats (rule R10, spec/10_state.md rules R27 to R29),
the value of a Float32 pattern (rule R11) and the offsets of the byte-order mux (spec/20_memory.md rule R42). -/

namespace Sys2Proof.Machine

/-- `sval(W1[w-1:0])`: the integer the low `w` bits of a word denote in two's complement (R9, R75, R6). -/
def sval (w : Nat) (x : Word) : Int :=
  let u := x.toNat % 2 ^ w
  if u < 2 ^ (w - 1) then (u : Int) else (u : Int) - 2 ^ w

/-- `zext_32(tc_w(n))`: the `w`-bit two's-complement pattern of `n` as a result word (R9, R72, R6). Every
rule that uses it has `n` in range. -/
def tc (w : Nat) (n : Int) : Word := BitVec.ofNat 32 (n % 2 ^ w).toNat

/-- `zext_32` of a 16-bit result (R72). -/
def zext (h : Half) : Word := h.setWidth 32

/-- `hsb(m)` for m >= 1: the position of the highest set bit, the source's firstBit (R9). -/
def hsb (m : Nat) : Nat := Nat.log2 m

/-! ### Byte images (R8) -/

/-- `val_16(order, b)` of a 2-byte image, offset 0 first. -/
def val16 (o : ByteOrder) (b0 b1 : Byte) : Half :=
  match o with
  | .littleEndian => b1 ++ b0
  | .bigEndian => b0 ++ b1

/-- `val_32(order, b)` of a 4-byte image, offset 0 first. -/
def val32 (o : ByteOrder) (b0 b1 b2 b3 : Byte) : Word :=
  match o with
  | .littleEndian => b3 ++ b2 ++ b1 ++ b0
  | .bigEndian => b0 ++ b1 ++ b2 ++ b3

/-- `img_16(order, v)`: the image with `val_16(order, image) = v`. -/
def img16 (o : ByteOrder) (v : Half) : List Byte :=
  match o with
  | .littleEndian => [v.extractLsb' 0 8, v.extractLsb' 8 8]
  | .bigEndian => [v.extractLsb' 8 8, v.extractLsb' 0 8]

/-- `img_32(order, v)`: the image with `val_32(order, image) = v`. -/
def img32 (o : ByteOrder) (v : Word) : List Byte :=
  match o with
  | .littleEndian => [v.extractLsb' 0 8, v.extractLsb' 8 8, v.extractLsb' 16 8, v.extractLsb' 24 8]
  | .bigEndian => [v.extractLsb' 24 8, v.extractLsb' 16 8, v.extractLsb' 8 8, v.extractLsb' 0 8]

/-- The probe word a truthful host of order `o` presents to INIT: the image of PROBE_CONST, offset 0 in
bits 7:0 (R101, R103). -/
def hostProbe (o : ByteOrder) : Word :=
  match img16 o Config.probeConst with
  | [b0, b1] => zext (val16 .littleEndian b0 b1)
  | _ => 0#32

/-! ### The byte-order mux (R42) -/

/-- `hi_off`: the offset, inside a 4-byte Float32 image, of the half that holds sign and exponent. -/
def hiOff : ByteOrder → Nat
  | .bigEndian => 0
  | .littleEndian => 2

/-- `lo_off(mode) = 2 - hi_off(mode)`. -/
def loOff (o : ByteOrder) : Nat := 2 - hiOff o

/-! ### Fields of the formats (R10, R27, R28, R29) -/

/-- `f.s`. -/
def f32Sign (f : Word) : Bool := f.getLsbD 31
/-- `f.e = f[30:23]`. -/
def f32Exp (f : Word) : BitVec 8 := f.extractLsb' 23 8
/-- `f.m = f[22:0]`. -/
def f32Frac (f : Word) : BitVec 23 := f.extractLsb' 0 23

/-- `h.s` of a TruncatedFloat16Value, `V.s` of a CrypticInt16Value. -/
def halfSign (h : Half) : Bool := h.getLsbD 15
/-- `h.e = h[14:7]`, `V.e = V[14:7]`. -/
def halfExp (h : Half) : BitVec 8 := h.extractLsb' 7 8
/-- `h.m = h[6:0]`, `V.m = V[6:0]`. -/
def halfFrac (h : Half) : BitVec 7 := h.extractLsb' 0 7

/-- `s : e : m`, the 32-bit layout (R27). -/
def f32Pack (s : Bool) (e : BitVec 8) (m : BitVec 23) : Word := BitVec.ofBool s ++ e ++ m

/-- `s : e : m`, the layout of both 16-bit formats (R28, R29). -/
def halfPack (s : Bool) (e : BitVec 8) (m : BitVec 7) : Half := BitVec.ofBool s ++ e ++ m

/-! ### The value of a Float32 pattern (R11) -/

/-- The class of a Float32 pattern (R11). -/
inductive FloatClass where
  | zero | subnormal | normal | infinity | nan
  deriving DecidableEq, Repr

/-- R11, the five rows. -/
def f32Class (f : Word) : FloatClass :=
  if f32Exp f = 0#8 then (if f32Frac f = 0#23 then .zero else .subnormal)
  else if f32Exp f = 255#8 then (if f32Frac f = 0#23 then .infinity else .nan)
  else .normal

/-- R11: the magnitude of a finite pattern in units of 2^(-149), so that it is an exact natural number:
`f.m` when `f.e = 0`, else `(2^23 + f.m) * 2^(f.e - 1)`. Not used for `f.e = 255`. -/
def f32Magnitude (f : Word) : Nat :=
  if f32Exp f = 0#8 then (f32Frac f).toNat
  else (2 ^ 23 + (f32Frac f).toNat) * 2 ^ ((f32Exp f).toNat - 1)

/-- R11: the value of a finite pattern in units of 2^(-149). -/
def f32Value (f : Word) : Int :=
  if f32Sign f then -(f32Magnitude f : Int) else (f32Magnitude f : Int)

end Sys2Proof.Machine
end

