-- ==== Sys2Proof/Machine/Ops.lean ====
section
/-! DEFINITION. The named operations every meaning is built from: MEM (spec/10_state.md rule R30), the end
of a command (spec/30_encoding.md rule R72), raising a fault, the block's whole exception mechanism
(spec/60_exceptions.md rules R200 to R204), the initialisation gate (spec/40_init.md rule R104) and the admission
of a bulk command (spec/20_memory.md rule R51). There is no return from a fault (rule R216): the next
command simply runs. -/

namespace Sys2Proof.Machine

/-! ### MEM -/

/-- The canonical form: addresses strictly rising. An unlisted address has NO entry (`lookup` answers
`none`), which no entry equals, so no entry repeats what an unlisted address reads as. -/
abbrev Memory.wf (m : Memory) : Prop := m.Pairwise fun c d => c.1 < d.1

/-- The byte written at `a` since reset, if any. -/
def Memory.lookup : Memory → Nat → Option Byte
  | [], _ => none
  | c :: rest, a => if c.1 = a then some c.2 else Memory.lookup rest a

/-- `MEM[a]` (R9, R30, R248): the byte last written, or the free byte of an unwritten address. -/
def Memory.readByte (m : Memory) (a : Nat) : Byte := (m.lookup a).getD (Config.unwrittenByte a)

/-- `MEM[a] <- b` (R9, R30), in the canonical form. -/
def Memory.write : Memory → Nat → Byte → Memory
  | [], a, b => [(a, b)]
  | c :: rest, a, b =>
    if a < c.1 then (a, b) :: c :: rest
    else if a = c.1 then (a, b) :: rest
    else c :: Memory.write rest a b

/-- MEM_BYTES (R6, R50): the addresses 0 .. MEM_BYTES - 1 exist. -/
def State.memBytes (s : State) : Nat := s.params.memLast.toNat + 1

/-! ### Updates of the state -/

/-- `MODE <- m`. -/
def State.withMode (s : State) (m : Mode) : State := { s with mode := m }

/-- MEM becomes `m`. -/
def State.withMem (s : State) (m : Memory) : State := { s with mem := m }

/-- The host's stream becomes `l`. -/
def State.withInbox (s : State) (l : List HostMove) : State := { s with inbox := l }

/-! ### The end of a command -/

/-- `return v` (R9, R72): status 0x00, the result, and STATUS sampled after the command's effect. -/
def State.finish (s : State) (v : Word) : State :=
  { s with response := some { status := 0x00#8, result := v, stat := s.stat } }

/-- `raise c` (R9, R200, R202, R204): the status code, `FLT <- 1`, a free result, and no other state. -/
def State.raise (s : State) (c : Cause) : State :=
  let t := { s with flt := true, draws := s.draws + 1 }
  { t with response := some { status := c.code, result := Config.freeResult s.draws, stat := t.stat } }

/-! ### Preconditions -/

/-- R104: a Float Truncator command needs an initialised MODE and goes on with the byte order it holds;
otherwise NotInitialized, before every other check of the command (R210). -/
def State.gated (s : State) (go : ByteOrder → State) : State :=
  match s.mode.order with
  | none => s.raise .notInitialized
  | some o => go o

/-- R51, checks 2 to 5 in their order, on unbounded integers; `ss` and `ds` are the element sizes. Check
4 is over the declared buffers, check 5 over the bytes accessed. -/
def State.admission (s : State) (ss ds : Nat) (src srcLen dst dstLen count : Nat) : Option Cause :=
  if srcLen < count ∨ dstLen < count then some .countExceedsBuffer
  else if src % ss ≠ 0 ∨ dst % ds ≠ 0 then some .misaligned
  else if s.memBytes < src + ss * srcLen ∨ s.memBytes < dst + ds * dstLen then some .addressRange
  else if 1 ≤ count ∧ src < dst + ds * count ∧ dst < src + ss * count then some .bufferOverlap
  else none

/-- R9: every `raise` is checked before any state is written: the fault, if there is one, else `t`. -/
def State.unless (s : State) (fault : Option Cause) (t : State) : State :=
  match fault with
  | some c => s.raise c
  | none => t

/-- A bulk command (R110, R114): gate, admission, then `convert` over MEM; nothing is written on a fault. -/
def State.bulk (s : State) (ss ds : Nat) (src srcLen dst dstLen count : Word)
    (convert : ByteOrder → Memory → Memory) : State :=
  s.gated fun o =>
    s.unless (s.admission ss ds src.toNat srcLen.toNat dst.toNat dstLen.toNat count.toNat)
      ((s.withMem (convert o s.mem)).finish 0#32)

end Sys2Proof.Machine
end

