-- ==== Sys2Proof/Machine/CrypticCodec.lean ====
section
/-! DEFINITION. The Cryptic Integer Codec, CENC and CDEC (spec/43_cryptic_codec.md). No definition here reads
MODE (rule R171). -/

namespace Sys2Proof.Machine

/-- R161 `pack(s, m)`, for `1 <= m <= 255`. -/
def pack (s : Bool) (m : Nat) : Half :=
  let p := hsb m
  halfPack s (BitVec.ofNat 8 (p + Config.cicBias)) (BitVec.ofNat 7 ((m - 2 ^ p) * 2 ^ (7 - p)))

/-- R168 `unpack(V)`, for `127 <= V.e <= 134`. -/
def unpack (v : Half) : Int :=
  let p := (halfExp v).toNat - Config.cicBias
  let m := (halfFrac v).toNat / 2 ^ (7 - p) + 2 ^ p
  if halfSign v then -(m : Int) else (m : Int)

/-- `127 <= V.e <= 134`, the exponent fields of the format (R33, R166). -/
def exponentInFormat (v : Half) : Bool :=
  decide (127 ≤ (halfExp v).toNat) && decide ((halfExp v).toNat ≤ 134)

/-- R33: canonical, that is all zero, or an exponent field of the format and the low `7 - p` mantissa
bits zero. -/
def canonical (v : Half) : Bool :=
  decide (v = 0x0000#16) ||
    (exponentInFormat v && decide ((halfFrac v).toNat % 2 ^ (7 - ((halfExp v).toNat - Config.cicBias)) = 0))

/-- R29, R47: the bytes the host persists, byte 0 = `V[15:8]` at the lower offset, whatever HOST_ORDER. -/
def persistedBytes (v : Half) : List Byte := [v.extractLsb' 8 8, v.extractLsb' 0 8]

/-- CENC (R160): `abs` is on unbounded integers, so -2^31 is out of range like any other. -/
def execCenc (n : Word) (s : State) : Host.Outcome State Fault Refusal :=
  let i := sval s.params.intW n
  if i = 0 then .next (s.finish (zext 0x0000#16))
  else if Config.cicMaxMag < i.natAbs then .next (s.raise .encodeRange)
  else .next (s.finish (zext (pack (decide (i < 0)) i.natAbs)))

/-- CDEC (R165): zero, InvalidEncoding (R166), or the source's formula, stray low mantissa bits and all
(R167). -/
def execCdec (v : Half) (s : State) : Host.Outcome State Fault Refusal :=
  if v = 0x0000#16 then .next (s.finish (tc s.params.intW 0))
  else if exponentInFormat v then .next (s.finish (tc s.params.intW (unpack v)))
  else .next (s.raise .invalidEncoding)

end Sys2Proof.Machine
end

