-- ==== Sys2Proof/Machine/FloatTruncator.lean ====
section
/-! DEFINITION. The Float Truncator's conversions (spec/41_float_truncator.md): the value functions `narrow`
and `widen` (rules R111, R113), the bulk commands NARROW and WIDEN (rules R110, R114) through the byte-order
mux of spec/20_memory.md rule R42, and the scalar NARROW1 and WIDEN1 (rules R118, R120). -/

namespace Sys2Proof.Machine

/-- R111: `f[31:16]`; truncation, never rounding. -/
def narrow (f : Word) : Half := f.extractLsb' 16 16

/-- R113: `h : 0x0000`. -/
def widen (h : Half) : Word := h ++ 0x0000#16

/-- R110, one element: the two bytes at `hi_off` of source element `i`, copied in their memory order. -/
def narrowElement (o : ByteOrder) (src dst i : Nat) (m : Memory) : Memory :=
  let b := src + 4 * i + hiOff o
  (m.write (dst + 2 * i) (m.readByte b)).write (dst + 2 * i + 1) (m.readByte (b + 1))

/-- R114, one element: the two source bytes at `hi_off`, zeros at `lo_off`; all four bytes are written. -/
def widenElement (o : ByteOrder) (src dst i : Nat) (m : Memory) : Memory :=
  let c := src + 2 * i
  let d := dst + 4 * i
  (((m.write (d + hiOff o) (m.readByte c)).write (d + hiOff o + 1) (m.readByte (c + 1))).write
    (d + loOff o) 0x00#8).write (d + loOff o + 1) 0x00#8

/-- The first `n` elements in ascending order (R55): element `n` comes after the `n` before it. -/
def narrowElements (o : ByteOrder) (src dst : Nat) : Nat → Memory → Memory
  | 0, m => m
  | n + 1, m => narrowElement o src dst n (narrowElements o src dst n m)

/-- The first `n` elements in ascending order (R55): element `n` comes after the `n` before it. -/
def widenElements (o : ByteOrder) (src dst : Nat) : Nat → Memory → Memory
  | 0, m => m
  | n + 1, m => widenElement o src dst n (widenElements o src dst n m)

/-- NARROW (R110): source elements of 4 bytes, destination elements of 2. -/
def execNarrow (src srcLen dst dstLen count : Word) (s : State) : Host.Outcome State Fault Refusal :=
  .next (s.bulk 4 2 src srcLen dst dstLen count fun o =>
    narrowElements o src.toNat dst.toNat count.toNat)

/-- WIDEN (R114): source elements of 2 bytes, destination elements of 4. -/
def execWiden (src srcLen dst dstLen count : Word) (s : State) : Host.Outcome State Fault Refusal :=
  .next (s.bulk 2 4 src srcLen dst dstLen count fun o =>
    widenElements o src.toNat dst.toNat count.toNat)

/-- NARROW1 (R118): the logical value, whichever byte order MODE holds. -/
def execNarrow1 (f : Word) (s : State) : Host.Outcome State Fault Refusal :=
  .next (s.gated fun _ => s.finish (zext (narrow f)))

/-- WIDEN1 (R120): the logical value, whichever byte order MODE holds. -/
def execWiden1 (h : Half) (s : State) : Host.Outcome State Fault Refusal :=
  .next (s.gated fun _ => s.finish (widen h))

end Sys2Proof.Machine
end

