-- ==== Sys2Proof/Machine/Init.lean ====
section
/-! DEFINITION. INIT, the one-time byte-order detection (spec/40_init.md rule R100). -/

namespace Sys2Proof.Machine

/-- R100: AlreadyInitialized first; then the two legal probe images; else ProbeInvalid. All 32 bits of
the probe are compared. -/
def execInit (probe : Word) (s : State) : Host.Outcome State Fault Refusal :=
  match s.mode with
  | .littleEndian => .next (s.raise .alreadyInitialized)
  | .bigEndian => .next (s.raise .alreadyInitialized)
  | .uninit =>
    if probe = 0x00000001#32 then .next ((s.withMode .littleEndian).finish 0#32)
    else if probe = 0x00000100#32 then .next ((s.withMode .bigEndian).finish 0#32)
    else .next (s.raise .probeInvalid)

end Sys2Proof.Machine
end

