-- ==== Sys2Proof/Machine/IntWrappers.lean ====
section
/-! DEFINITION. The integer convenience commands FROMINT and TOINT (spec/42_int_wrappers.md), for any INT_W
(spec/00_scope.md rule R6: INT_W stands for 32 in the operand, the range checks and the result's width). -/

namespace Sys2Proof.Machine

/-- R141: whether the kept bits `q` are incremented, given the dropped bits `r` and their number `sh`. By
the default, when `r` is above the half, or is the half and `q` is odd. An exact value (`r = 0`) is
never changed, under any rounding. -/
def roundsUp (rnd : Rounding) (neg : Bool) (q r sh : Nat) : Bool :=
  match rnd with
  | .nearestTiesToEven => decide (2 ^ (sh - 1) < r) || (decide (r = 2 ^ (sh - 1)) && decide (q % 2 = 1))
  | .other => decide (r ≠ 0) && Config.otherRoundsUp neg q r sh

/-- R141 `i2f`: the Float32 pattern of the Float32 value nearest to `i` under the rounding. -/
def i2f (rnd : Rounding) (i : Int) : Word :=
  if i = 0 then 0x00000000#32
  else
    let s := decide (i < 0)
    let m := i.natAbs
    let p := hsb m
    if p ≤ 23 then f32Pack s (BitVec.ofNat 8 (p + 127)) (BitVec.ofNat 23 ((m - 2 ^ p) * 2 ^ (23 - p)))
    else
      let sh := p - 23
      let q := m / 2 ^ sh
      let r := m - q * 2 ^ sh
      let q' := if roundsUp rnd s q r sh then q + 1 else q
      if q' = 2 ^ 24 then f32Pack s (BitVec.ofNat 8 (p + 1 + 127)) 0#23
      else f32Pack s (BitVec.ofNat 8 (p + 127)) (BitVec.ofNat 23 (q' - 2 ^ 23))

/-- R146 `mag(h)`, for `1 <= h.e <= 254`: the magnitude of the value, truncated toward zero. -/
def mag (h : Half) : Nat :=
  let sig := 128 + (halfFrac h).toNat
  let e := (halfExp h).toNat
  if e < 127 then 0
  else if e ≤ 133 then sig / 2 ^ (134 - e)
  else sig * 2 ^ (e - 134)

/-- R145: the integer TOINT converts `h` to, `none` for an infinity or a NaN. -/
def f2i (h : Half) : Option Int :=
  if halfExp h = 255#8 then none
  else if halfExp h = 0#8 then some 0
  else if halfSign h then some (-(mag h : Int)) else some (mag h : Int)

/-- FROMINT (R140): integer to Float32, then truncation. -/
def execFromint (i : Word) (s : State) : Host.Outcome State Fault Refusal :=
  .next (s.gated fun _ => s.finish (zext (narrow (i2f s.params.rounding (sval s.params.intW i)))))

/-- R145, after the gate: IntConvRange for an infinity, a NaN, or a value outside INT_W bits. -/
def tointAnswer (h : Half) (s : State) : State :=
  match f2i h with
  | none => s.raise .intConvRange
  | some n =>
    if n < -2 ^ (s.params.intW - 1) ∨ 2 ^ (s.params.intW - 1) - 1 < n then s.raise .intConvRange
    else s.finish (tc s.params.intW n)

/-- TOINT (R145): widen, then convert with truncation toward zero. -/
def execToint (h : Half) (s : State) : Host.Outcome State Fault Refusal :=
  .next (s.gated fun _ => tointAnswer h s)

end Sys2Proof.Machine
end

