-- ==== Sys2Proof/Machine/Dispatch.lean ====
section
/-! DEFINITION. The meaning of every command: one arm per constructor of `Instr`, each one direct call. -/

namespace Sys2Proof.Machine

def exec (i : Instr) (s : State) : Host.Outcome State Fault Refusal :=
  match i with
  | .init probe => Sys2Proof.Machine.execInit probe s
  | .narrow src srcLen dst dstLen count => Sys2Proof.Machine.execNarrow src srcLen dst dstLen count s
  | .widen src srcLen dst dstLen count => Sys2Proof.Machine.execWiden src srcLen dst dstLen count s
  | .narrow1 f => Sys2Proof.Machine.execNarrow1 f s
  | .widen1 h => Sys2Proof.Machine.execWiden1 h s
  | .fromint n => Sys2Proof.Machine.execFromint n s
  | .toint h => Sys2Proof.Machine.execToint h s
  | .cenc n => Sys2Proof.Machine.execCenc n s
  | .cdec v => Sys2Proof.Machine.execCdec v s

end Sys2Proof.Machine
end

