-- ==== Sys2Proof/Machine/Interface.lean ====
section
/-! DEFINITION. What the block and the host do at the command interface (spec/30_encoding.md rules R70, R76;
spec/10_state.md rule R30): performing one descriptor, and one store of the host into MEM between commands. -/

namespace Sys2Proof.Machine

/-- R70, R76, R210: decode first; an illegal descriptor raises IllegalCommand, any other is its command. -/
def perform (d : Descriptor) (s : State) : Host.Outcome State Fault Refusal :=
  match decode d with
  | .command i => exec i s
  | .illegal _ => .next (s.raise .illegalCommand)

/-- R30, R50: the host writes one byte between commands; an address >= MEM_BYTES does not exist. -/
def hostStore (a : Word) (b : Byte) (s : State) : Host.Outcome State Fault Refusal :=
  if a.toNat < s.memBytes then .next (s.withMem (s.mem.write a.toNat b))
  else .fault (.noSuchAddress a)

end Sys2Proof.Machine
end

