-- ==== Sys2Proof/Machine/Step.lean ====
section
/-! DEFINITION. One step: the block takes the host's next move and performs it whole (spec/30_encoding.md rule
R70). With no move presented it holds its state (spec/60_exceptions.md rule R235). -/

namespace Sys2Proof.Machine

/-- One move of the host, taken off the stream and performed (R70, R30); idle when there is none (R235). -/
def step (s : State) : Host.Outcome State Fault Refusal :=
  match s.inbox with
  | [] => .next s
  | .issue d :: rest => perform d (s.withInbox rest)
  | .store a b :: rest => hostStore a b (s.withInbox rest)

/-- `s` with the descriptor of an opcode-table word presented as the host's next move. -/
def State.withFetchWord (s : State) (nbits w : Nat) : State :=
  s.withInbox (.issue (Descriptor.ofTableWord nbits w) :: s.inbox)

end Sys2Proof.Machine
end

