-- ==== Sys2Proof/Machine/Assembler.lean ====
section
/-! DEFINITION. The assembler's textual form (spec/30_encoding.md rule R79) and the pseudo-commands (rule R80).
It is a tool of the host: no step uses it. Text is a list of characters. -/

namespace Sys2Proof.Machine

/-! ### The nine commands and the seven pseudo-commands -/

/-- A number as written: whether it carries a `-`, and its magnitude (R79). -/
abbrev AsmNumber := Bool × Nat

/-- An unsigned 32-bit operand. -/
def asmWord : AsmNumber → Option Word
  | (neg, n) => if neg = false ∧ n < 2 ^ 32 then some (BitVec.ofNat 32 n) else none

/-- A 16-bit operand, assembled as `zext_32` (R79). -/
def asmHalf : AsmNumber → Option Half
  | (neg, n) => if neg = false ∧ n < 2 ^ 16 then some (BitVec.ofNat 16 n) else none

/-- The signed operand of FROMINT and CENC: the assembler writes `tc_32` of the value (R79); a bare pattern
up to 0xFFFFFFFF stands for itself (R13 writes `CENC 0x80000000`). -/
def asmSigned : AsmNumber → Option Word
  | (neg, n) =>
    if neg then (if n ≤ 2 ^ 31 then some (BitVec.ofInt 32 (-(n : Int))) else none)
    else if n < 2 ^ 32 then some (BitVec.ofNat 32 n) else none

/-- The five operands of a format B line, in order (R79). -/
def asmBulk (make : Word → Word → Word → Word → Word → Instr) (ops : List AsmNumber) : Option Instr :=
  match ops with
  | [src, srcLen, dst, dstLen, count] =>
    match asmWord src, asmWord srcLen, asmWord dst, asmWord dstLen, asmWord count with
    | some a, some b, some c, some d, some e => some (make a b c d e)
    | _, _, _, _, _ => none
  | _ => none

/-- The one operand of a format P or S line (R79). -/
def asmOne {α : Type} (read : AsmNumber → Option α) (make : α → Instr) (ops : List AsmNumber) : Option Instr :=
  match ops with
  | [a] => (read a).map make
  | _ => none

/-- R79, R80: the command a mnemonic and its operands stand for; a pseudo-command is its expansion. -/
def asmCommand (k : Mnemonic) (ops : List AsmNumber) : Option Instr :=
  match k with
  | .init => asmOne asmWord .init ops
  | .narrow => asmBulk .narrow ops
  | .widen => asmBulk .widen ops
  | .narrow1 => asmOne asmWord .narrow1 ops
  | .widen1 => asmOne asmHalf .widen1 ops
  | .fromint => asmOne asmSigned .fromint ops
  | .toint => asmOne asmHalf .toint ops
  | .cenc => asmOne asmSigned .cenc ops
  | .cdec => asmOne asmHalf .cdec ops
  | .initLE => if ops = [] then some (.init 0x00000001#32) else none
  | .initBE => if ops = [] then some (.init 0x00000100#32) else none
  | .nop => if ops = [] then some (.cenc 0#32) else none
  | .float32ToBfloat16 => asmBulk .narrow ops
  | .bfloat16ToFloat32 => asmBulk .widen ops
  | .num2bin => asmOne asmSigned .cenc ops
  | .bin2num => asmOne asmHalf .cdec ops

/-- The descriptor of a mnemonic with operands. -/
def assemble (k : Mnemonic) (ops : List AsmNumber) : Option Descriptor := (asmCommand k ops).map encode

/-! ### The text of a line -/

/-- The spelling of each mnemonic (R79, R80). -/
def mnemonicTable : List (List Char × Mnemonic) :=
  [ ("INIT".toList, .init),
    ("NARROW".toList, .narrow),
    ("WIDEN".toList, .widen),
    ("NARROW1".toList, .narrow1),
    ("WIDEN1".toList, .widen1),
    ("FROMINT".toList, .fromint),
    ("TOINT".toList, .toint),
    ("CENC".toList, .cenc),
    ("CDEC".toList, .cdec),
    ("INIT.LE".toList, .initLE),
    ("INIT.BE".toList, .initBE),
    ("NOP".toList, .nop),
    ("float32_to_bfloat16".toList,
      .float32ToBfloat16),
    ("bfloat16_to_float32".toList,
      .bfloat16ToFloat32),
    ("num2bin".toList, .num2bin),
    ("bin2num".toList, .bin2num) ]

/-- White space inside a line. -/
def asmBlank (c : Char) : Bool := c == ' ' || c == '\t'

/-- A field without the white space around it. -/
def asmTrim (l : List Char) : List Char := ((l.dropWhile asmBlank).reverse.dropWhile asmBlank).reverse

/-- The value of a digit, in either case of the hexadecimal letters. -/
def asmDigit (c : Char) : Option Nat :=
  let n := c.toNat
  if 48 ≤ n ∧ n ≤ 57 then some (n - 48)
  else if 65 ≤ n ∧ n ≤ 70 then some (n - 55)
  else if 97 ≤ n ∧ n ≤ 102 then some (n - 87)
  else none

/-- The digits of a number in a base, most significant first. -/
def asmDigits (base : Nat) : Nat → List Char → Option Nat
  | acc, [] => some acc
  | acc, c :: rest =>
    match asmDigit c with
    | some n => if n < base then asmDigits base (acc * base + n) rest else none
    | none => none

/-- A decimal or `0x` hexadecimal magnitude (R79). -/
def asmMagnitude : List Char → Option Nat
  | [] => none
  | '0' :: 'x' :: rest => if rest = [] then none else asmDigits 16 0 rest
  | l => asmDigits 10 0 l

/-- A number with its optional leading `-` (R79). -/
def asmNumber : List Char → Option AsmNumber
  | '-' :: rest => (asmMagnitude rest).map fun n => (true, n)
  | l => (asmMagnitude l).map fun n => (false, n)

/-- The text between the commas. -/
def asmFields : List Char → List (List Char)
  | [] => [[]]
  | c :: rest =>
    match asmFields rest with
    | [] => [[]]
    | f :: fs => if c = ',' then [] :: f :: fs else (c :: f) :: fs

/-- All fields as numbers, or `none` when one is none. -/
def asmNumbers : List (List Char) → Option (List AsmNumber)
  | [] => some []
  | f :: fs =>
    match asmNumber (asmTrim f), asmNumbers fs with
    | some n, some ns => some (n :: ns)
    | _, _ => none

/-- R79: one line of text. `none` when it is no line of the form; `some none` for a line that holds nothing but
white space and a comment; otherwise the descriptor of its command. -/
def asmLine (line : List Char) : Option (Option Descriptor) :=
  let text := asmTrim (line.takeWhile fun c => c != ';')
  if text = [] then some none
  else
    let name := text.takeWhile fun c => !asmBlank c
    let rest := asmTrim (text.dropWhile fun c => !asmBlank c)
    match mnemonicTable.find? fun e => e.1 == name with
    | none => none
    | some e =>
      match (if rest = [] then some [] else asmNumbers (asmFields rest)) with
      | none => none
      | some ops => (assemble e.2 ops).map some

/-! ### Writing a line -/

/-- A number as R79 writes it: its `-` if it carries one, then the magnitude in hexadecimal or in decimal. -/
def numberText (hex : Bool) (a : AsmNumber) : List Char :=
  (if a.1 then ['-'] else []) ++ if hex then '0' :: 'x' :: Nat.toDigits 16 a.2 else Nat.toDigits 10 a.2

/-- A line as R79 writes it: the mnemonic, a space, and the operands, each in hexadecimal or in decimal, with
a comma and a space between. -/
def lineText (mnemonic : List Char) (operands : List (Bool × AsmNumber)) : List Char :=
  mnemonic ++ ' ' :: List.intercalate [',', ' '] (operands.map fun o => numberText o.1 o.2)

end Sys2Proof.Machine
end

