-- ==== Sys2Proof/Safety.lean ====
section
/-! DEFINITION. What claims about the block speak of: a run without a fault (spec/60_exceptions.md rule R205),
the host's launch premise (spec/40_init.md rule R103), how a command ends, the precondition table of
spec/60_exceptions.md rule R210, and the invariant of the state. -/

namespace Sys2Proof.Machine

/-- R205, R22: no command has faulted since reset, the "nothing went wrong" of a run. -/
def State.noFault (s : State) : Prop := s.flt = false

/-- R103: `MODE = HOST_ORDER`, the named launch premise of every claim about Float32 values in MEM. -/
def State.agreesWith (s : State) (hostOrder : ByteOrder) : Prop := s.mode = Mode.ofOrder hostOrder

/-- `t` is `s` after a command that ended OK with result `v` and wrote no other state (R72). -/
def AnsweredWith (v : Word) (s t : State) : Prop :=
  t = { s with response := some { status := 0x00#8, result := v, stat := s.stat } }

/-- `t` is `s` after a command that raised `c` (R202, R204): FLT set, a response with the code and STATUS, its
result any word, and every other piece of the spec's state as it was. -/
def FaultedWith (c : Cause) (s t : State) : Prop :=
  t.mode = s.mode ∧ t.flt = true ∧ t.mem = s.mem ∧ t.inbox = s.inbox ∧ t.params = s.params ∧
    ∃ result, t.response = some { status := c.code, result := result, stat := t.stat }

/-- `t` is `s` but for MEM and the response, an OK with result 0 (R72: a bulk command has no result). -/
def WroteOnlyMemory (s t : State) : Prop :=
  t = { s with mem := t.mem, response := some { status := 0x00#8, result := 0#32, stat := s.stat } }

/-- `m` and `m'` hold the same byte at every address below `lo` and from `hi` on. -/
def SameOutside (lo hi : Nat) (m m' : Memory) : Prop :=
  ∀ a, a < lo ∨ hi ≤ a → m'.readByte a = m.readByte a

/-- The preconditions of a bulk command after the gate, in the order of R210 (R51, checks 2 to 5). -/
def bulkPreconditions (ss ds : Nat) (src srcLen dst dstLen count : Word) (s : State) : List (Cause × Bool) :=
  [ (.notInitialized, decide (s.mode = .uninit)),
    (.countExceedsBuffer, decide (count > srcLen) || decide (count > dstLen)),
    (.misaligned, decide (src.toNat % ss ≠ 0) || decide (dst.toNat % ds ≠ 0)),
    (.addressRange, decide (src.toNat + ss * srcLen.toNat > s.memBytes) ||
      decide (dst.toNat + ds * dstLen.toNat > s.memBytes)),
    (.bufferOverlap, decide (count ≠ 0#32) && decide (src.toNat < dst.toNat + ds * count.toNat) &&
      decide (dst.toNat < src.toNat + ss * count.toNat)) ]

/-- R210: for each command, the causes it can raise in their order, each with whether its condition
holds (R201 and the command's own rule). Decoding comes before all of them. -/
def preconditions (i : Instr) (s : State) : List (Cause × Bool) :=
  match i with
  | .init probe =>
    [ (.alreadyInitialized, decide (s.mode ≠ .uninit)),
      (.probeInvalid, decide (probe ≠ 0x00000001#32) && decide (probe ≠ 0x00000100#32)) ]
  | .narrow src srcLen dst dstLen count => bulkPreconditions 4 2 src srcLen dst dstLen count s
  | .widen src srcLen dst dstLen count => bulkPreconditions 2 4 src srcLen dst dstLen count s
  | .narrow1 _ => [(.notInitialized, decide (s.mode = .uninit))]
  | .widen1 _ => [(.notInitialized, decide (s.mode = .uninit))]
  | .fromint _ => [(.notInitialized, decide (s.mode = .uninit))]
  | .toint h =>
    [ (.notInitialized, decide (s.mode = .uninit)),
      (.intConvRange, decide (halfExp h = 255#8) ||
        (!halfSign h && decide (mag h ≥ 2 ^ (s.params.intW - 1))) ||
        (halfSign h && decide (mag h > 2 ^ (s.params.intW - 1)))) ]
  | .cenc n => [(.encodeRange, decide ((sval s.params.intW n).natAbs > 255))]
  | .cdec v =>
    [(.invalidEncoding, decide (v ≠ 0#16) && (decide (halfExp v < 127#8) || decide (halfExp v > 134#8)))]

/-- R210: the one cause reported, the first whose condition holds. -/
def firstFault (i : Instr) (s : State) : Option Cause :=
  ((preconditions i s).find? fun e => e.2).map fun e => e.1

/-- The invariant of the block: MEM in its canonical form and inside the address map (R30, R50), legal
parameters (R6), and a response that tells the truth: its status one of R201, its STATUS the current
one, FLT set if it reports a fault (R22, R23); before the first response nothing has happened (R32). -/
structure State.Inv (s : State) : Prop where
  memWf : s.mem.wf
  memInside : ∀ c ∈ s.mem, c.1 < s.memBytes
  paramsLegal : s.params.wellFormed = true
  responseTrue : ∀ r, s.response = some r →
    r.stat = s.stat ∧ r.status.toNat ≤ 0x0B ∧ (r.status ≠ 0x00#8 → s.flt = true)
  silentStart : s.response = none → s.mode = .uninit ∧ s.flt = false

end Sys2Proof.Machine
end

