-- ==== Sys2Proof/Certificates/Slice0/Obligations.lean ====
section
/-! DEFINITION. The statements about the vdl120 codec block for the provers, each from the numbered rules of
spec/. Nothing is proved here. "The response" of a state is that of its last command; a status of 0 is OK.
Where a rule leaves a value unspecified (the result beside a nonzero status), no statement speaks of it. -/

open Sys2Proof Sys2Proof.Machine

/-! ### The command interface and the encoding -/

/-- 30_encoding.md, R71, R74, R75, R77: every command survives encoding and decoding with every operand at
every value, and a descriptor that decodes to a command is that command's encoding but for ignored bits. -/
def Obligations.DecodeAndEncodeAgree : Prop :=
  (∀ i : Instr, decode (encode i) = .command i) ∧
    ∀ (d : Descriptor) (i : Instr), decode d = .command i → encode i = d.withoutIgnored

/-- R76: which descriptors are illegal, that they raise IllegalCommand whatever W1 to W5 and MODE hold, and that
CENC 0 is the command without effect and without fault. -/
def Obligations.IllegalDescriptorsRaiseIllegalCommand : Prop :=
  (∀ d : Descriptor,
    (d.w0 >>> 8 ≠ 0#32 ∨ d.w0 &&& 0xFF#32 = 0#32 ∨ 0x0A#32 ≤ d.w0 &&& 0xFF#32) ↔
      ∀ i, decode d ≠ .command i) ∧
  (∀ (s : State) (d : Descriptor) (rest : List HostMove), s.inbox = .issue d :: rest →
    (d.w0 >>> 8 ≠ 0#32 ∨ d.w0 &&& 0xFF#32 = 0#32 ∨ 0x0A#32 ≤ d.w0 &&& 0xFF#32) →
      ∃ t, step s = .next t ∧ FaultedWith .illegalCommand (s.withInbox rest) t) ∧
  ∀ s : State, ∃ t, exec (.cenc 0#32) s = .next t ∧ AnsweredWith 0#32 s t

/-- R77: a legal descriptor and another decode to the same command exactly when they differ in ignored bits only,
and then the block does the same for both (the result beside a nonzero status apart, which R72 leaves open). -/
def Obligations.IgnoredBitsHaveNoEffect : Prop :=
  ∀ d e : Descriptor, d.legal = true →
    (decode d = decode e ↔ d.withoutIgnored = e.withoutIgnored) ∧
      (d.withoutIgnored = e.withoutIgnored →
        ∀ (s : State) (rest : List HostMove), ∃ t u r q,
          step (s.withInbox (.issue d :: rest)) = .next t ∧ step (s.withInbox (.issue e :: rest)) = .next u ∧
            t.response = some r ∧ u.response = some q ∧ u.mode = t.mode ∧ u.flt = t.flt ∧ u.mem = t.mem ∧
            u.inbox = t.inbox ∧ u.params = t.params ∧ q.status = r.status ∧ q.stat = r.stat ∧
            (r.status = 0x00#8 → q.result = r.result))

/-- R70: a step runs the command its descriptor decodes to, on the state without that descriptor. -/
def Obligations.StepRunsTheDecodedCommand : Prop :=
  (∀ (s : State) (d : Descriptor) (rest : List HostMove) (i : Instr),
    s.inbox = .issue d :: rest → decode d = .command i → step s = exec i (s.withInbox rest)) ∧
  ∀ (s : State) (nbits w : Nat) (i : Instr),
    decodeTableWord nbits w = some i → step (s.withFetchWord nbits w) = exec i s

/-- R74, R75: descriptors of spec/95_test_vectors.md, written out, decode to the commands they stand for. -/
def Obligations.WrittenOutDescriptorsDecode : Prop :=
  decode ⟨0x00000001#32, 0x00000100#32, 0#32, 0#32, 0#32, 0#32⟩ = .command (.init 0x100#32) ∧
  decode ⟨0x00000002#32, 0x00000100#32, 3#32, 0x00000200#32, 4#32, 3#32⟩ =
    .command (.narrow 0x100#32 3#32 0x200#32 4#32 3#32) ∧
  decode ⟨0x00000003#32, 0x00000200#32, 4#32, 0x00000300#32, 4#32, 3#32⟩ =
    .command (.widen 0x200#32 4#32 0x300#32 4#32 3#32) ∧
  decode ⟨0x00000004#32, 0x40490E56#32, 0#32, 0#32, 0#32, 0#32⟩ = .command (.narrow1 0x40490E56#32) ∧
  decode ⟨0x00000005#32, 0xABCD4049#32, 0#32, 0#32, 0#32, 0#32⟩ = .command (.widen1 0x4049#16) ∧
  decode ⟨0x00000006#32, 0xFFFFFED4#32, 0#32, 0#32, 0#32, 0#32⟩ = .command (.fromint 0xFFFFFED4#32) ∧
  decode ⟨0x00000007#32, 0x0000C396#32, 0#32, 0#32, 0#32, 0#32⟩ = .command (.toint 0xC396#16) ∧
  decode ⟨0x00000008#32, 5#32, 0xDEADBEEF#32, 0x12345678#32, 0xFFFFFFFF#32, 1#32⟩ = .command (.cenc 5#32) ∧
  decode ⟨0x00000009#32, 0xFFFF40A0#32, 0#32, 0#32, 0#32, 0#32⟩ = .command (.cdec 0x40A0#16)

/-- R8: the value of an image in either order, and `img_N(order, v)` as the one image whose value is `v`. -/
def Obligations.ByteImagesAreUniqueInverses : Prop :=
  (∀ b0 b1 : Byte, val16 .littleEndian b0 b1 = b1 ++ b0 ∧ val16 .bigEndian b0 b1 = b0 ++ b1) ∧
  (∀ b0 b1 b2 b3 : Byte, val32 .littleEndian b0 b1 b2 b3 = b3 ++ b2 ++ b1 ++ b0 ∧
    val32 .bigEndian b0 b1 b2 b3 = b0 ++ b1 ++ b2 ++ b3) ∧
  (∀ (o : ByteOrder) (v : Half),
    ∃ b0 b1, img16 o v = [b0, b1] ∧ ∀ c0 c1, val16 o c0 c1 = v ↔ c0 = b0 ∧ c1 = b1) ∧
  ∀ (o : ByteOrder) (v : Word),
    ∃ b0 b1 b2 b3, img32 o v = [b0, b1, b2, b3] ∧
      ∀ c0 c1 c2 c3, val32 o c0 c1 c2 c3 = v ↔ c0 = b0 ∧ c1 = b1 ∧ c2 = b2 ∧ c3 = b3

/-- R235: between commands the block holds its state. -/
def Obligations.IdleBlockHoldsItsState : Prop :=
  ∀ s : State, s.inbox = [] → step s = .next s

/-- R30, R50: the host's store between commands changes the one byte it names and nothing else of the block, and
an address at or above MEM_BYTES does not exist. -/
def Obligations.HostStoreChangesOneByte : Prop :=
  ∀ (s : State) (a : Word) (b : Byte) (rest : List HostMove), s.inbox = .store a b :: rest →
    (a.toNat < s.memBytes →
      ∃ t, step s = .next t ∧ t = { s with inbox := rest, mem := t.mem } ∧
        t.mem.readByte a.toNat = b ∧ ∀ x, x ≠ a.toNat → t.mem.readByte x = s.mem.readByte x) ∧
    (s.memBytes ≤ a.toNat → step s = .fault (.noSuchAddress a))

/-- R70: whatever the descriptor and the state, the command ends with exactly one response, its status OK or
a code of R201, and the host's further moves and the parameters stand. -/
def Obligations.EveryDescriptorGetsAResponse : Prop :=
  ∀ (d : Descriptor) (s : State), ∃ t r, perform d s = .next t ∧ t.response = some r ∧
    r.status.toNat ≤ 0x0B ∧ r.stat = t.stat ∧ t.inbox = s.inbox ∧ t.params = s.params

/-- R79: the words each of the nine mnemonics assembles to, with its operands in the order written, unused words
0, 16-bit operands extended with zeros, and a negative operand of FROMINT and CENC as its 32-bit
two's-complement pattern; and every assembled descriptor is legal, has its unused bits zero and
decodes to the command written. -/
def Obligations.AssembledLinesDecodeToTheirCommand : Prop :=
  (∀ w : Word, assemble .init [(false, w.toNat)] = some ⟨0x01#32, w, 0#32, 0#32, 0#32, 0#32⟩) ∧
  (∀ src srcLen dst dstLen count : Word,
    assemble .narrow [(false, src.toNat), (false, srcLen.toNat), (false, dst.toNat), (false, dstLen.toNat),
        (false, count.toNat)] = some ⟨0x02#32, src, srcLen, dst, dstLen, count⟩ ∧
      assemble .widen [(false, src.toNat), (false, srcLen.toNat), (false, dst.toNat), (false, dstLen.toNat),
        (false, count.toNat)] = some ⟨0x03#32, src, srcLen, dst, dstLen, count⟩) ∧
  (∀ w : Word, assemble .narrow1 [(false, w.toNat)] = some ⟨0x04#32, w, 0#32, 0#32, 0#32, 0#32⟩) ∧
  (∀ h : Half,
    assemble .widen1 [(false, h.toNat)] = some ⟨0x05#32, 0x0000#16 ++ h, 0#32, 0#32, 0#32, 0#32⟩ ∧
      assemble .toint [(false, h.toNat)] = some ⟨0x07#32, 0x0000#16 ++ h, 0#32, 0#32, 0#32, 0#32⟩ ∧
      assemble .cdec [(false, h.toNat)] = some ⟨0x09#32, 0x0000#16 ++ h, 0#32, 0#32, 0#32, 0#32⟩) ∧
  (∀ n : Nat, n ≤ 2 ^ 31 →
    assemble .fromint [(true, n)] = some ⟨0x06#32, -BitVec.ofNat 32 n, 0#32, 0#32, 0#32, 0#32⟩ ∧
      assemble .cenc [(true, n)] = some ⟨0x08#32, -BitVec.ofNat 32 n, 0#32, 0#32, 0#32, 0#32⟩) ∧
  (∀ n : Nat, n < 2 ^ 31 →
    assemble .fromint [(false, n)] = some ⟨0x06#32, BitVec.ofNat 32 n, 0#32, 0#32, 0#32, 0#32⟩ ∧
      assemble .cenc [(false, n)] = some ⟨0x08#32, BitVec.ofNat 32 n, 0#32, 0#32, 0#32, 0#32⟩) ∧
  ∀ (k : Mnemonic) (ops : List AsmNumber) (d : Descriptor), assemble k ops = some d →
    d.legal = true ∧ d.assembled = true ∧ ∃ i, asmCommand k ops = some i ∧ decode d = .command i

/-- R79, R80: a line of text (mnemonic, a space, the operands in decimal or `0x` hexadecimal with commas between,
then nothing or `;` and a comment) assembles to the descriptor of the mnemonic it spells and the operands
it writes, for every mnemonic and pseudo-command. What the assembler takes besides is log entry 16. -/
def Obligations.LinesOfTextAssembleToTheirDescriptors : Prop :=
  ∀ e ∈ [("INIT", Mnemonic.init), ("NARROW", .narrow), ("WIDEN", .widen), ("NARROW1", .narrow1),
      ("WIDEN1", .widen1), ("FROMINT", .fromint), ("TOINT", .toint), ("CENC", .cenc), ("CDEC", .cdec),
      ("INIT.LE", .initLE), ("INIT.BE", .initBE), ("NOP", .nop), ("num2bin", .num2bin), ("bin2num", .bin2num),
      ("float32_to_bfloat16", .float32ToBfloat16), ("bfloat16_to_float32", .bfloat16ToFloat32)],
    ∀ (operands : List (Bool × AsmNumber)) (comment : List Char),
      asmLine (lineText e.1.toList operands) = (assemble e.2 (operands.map fun o => o.2)).map some ∧
        asmLine (lineText e.1.toList operands ++ ' ' :: ';' :: comment) =
          (assemble e.2 (operands.map fun o => o.2)).map some

/-- R80: each pseudo-command assembles to its expansion. -/
def Obligations.PseudoCommandsAreTheirExpansions : Prop :=
  assemble .initLE [] = assemble .init [(false, 0x00000001)] ∧
  assemble .initBE [] = assemble .init [(false, 0x00000100)] ∧
  assemble .nop [] = assemble .cenc [(false, 0)] ∧
  (∀ ops, assemble .float32ToBfloat16 ops = assemble .narrow ops) ∧
  (∀ ops, assemble .bfloat16ToFloat32 ops = assemble .widen ops) ∧
  (∀ ops, assemble .num2bin ops = assemble .cenc ops) ∧
  ∀ ops, assemble .bin2num ops = assemble .cdec ops

/-! ### Reset and invariants -/

/-- R32: MODE = Uninit, FLT = 0, STATUS all zero; every byte of MEM is the free value of its address (log
entry 1). -/
def Obligations.ResetLeavesModeUninit : Prop :=
  State.reset.mode = .uninit ∧ State.reset.flt = false ∧ State.reset.stat = 0x00#8 ∧
    State.reset.response = none ∧ ∀ a, State.reset.mem.readByte a = Config.unwrittenByte a

/-- The invariant `State.Inv` holds after reset. -/
def Obligations.ResetSatisfiesTheStateInvariant : Prop := State.reset.Inv

/-- Every step, of a command or of the host, keeps `State.Inv`. -/
def Obligations.EveryStepKeepsTheStateInvariant : Prop :=
  ∀ s t : State, s.Inv → step s = .next t → t.Inv

/-- R21: MODE changes only from Uninit, only by a successful INIT, to the order its probe shows; a faulting
command never changes it; once set it stays over every run; reset leaves it Uninit. -/
def Obligations.ModeIsSetOnceAndOnlyByInit : Prop :=
  (∀ s t : State, step s = .next t → t.mode ≠ s.mode →
    s.mode = .uninit ∧ ∃ d rest probe, s.inbox = .issue d :: rest ∧ decode d = .command (.init probe) ∧
      ((probe = 0x00000001#32 ∧ t.mode = .littleEndian) ∨ (probe = 0x00000100#32 ∧ t.mode = .bigEndian)) ∧
      ∃ r, t.response = some r ∧ r.status = 0x00#8) ∧
  (∀ (d : Descriptor) (s t : State) (r : Response), perform d s = .next t → t.response = some r →
    r.status ≠ 0x00#8 → t.mode = s.mode) ∧
  (∀ (n : Nat) (s t : State), Host.Core.run Sys2Proof.core n s = .next t → s.mode ≠ .uninit →
    t.mode = s.mode) ∧
  State.reset.mode = .uninit

/-- R22: every nonzero status sets FLT, an OK leaves it, no run clears it, reset does; and no command's effect
and status, nor the result beside an OK, depends on it (R72 leaves the result beside another status open). -/
def Obligations.FltIsStickyAndNeverRead : Prop :=
  (∀ (d : Descriptor) (s t : State) (r : Response), perform d s = .next t → t.response = some r →
    (r.status ≠ 0x00#8 → t.flt = true) ∧ (r.status = 0x00#8 → t.flt = s.flt)) ∧
  (∀ (n : Nat) (s t : State), Host.Core.run Sys2Proof.core n s = .next t → s.flt = true → t.flt = true) ∧
  (∀ (d : Descriptor) (s : State) (b : Bool), ∃ t u r q,
    perform d s = .next t ∧ perform d { s with flt := b } = .next u ∧
      t.response = some r ∧ u.response = some q ∧
      u.mode = t.mode ∧ u.mem = t.mem ∧ q.status = r.status ∧
      (r.status = 0x00#8 → q.result = r.result)) ∧
  State.reset.flt = false

/-- R23: the layout of STATUS; every response carries STATUS sampled after the command's effect; the host's
stores leave it; after reset it is zero. -/
def Obligations.StatusReportsModeAndFlt : Prop :=
  (∀ s : State, s.stat.extractLsb' 3 5 = 0#5 ∧ s.stat.getLsbD 2 = s.flt ∧
    s.stat.extractLsb' 0 2 ≠ 0b11#2 ∧
    (s.mode = .uninit ↔ s.stat.extractLsb' 0 2 = 0b00#2) ∧
    (s.mode = .littleEndian ↔ s.stat.extractLsb' 0 2 = 0b01#2) ∧
    (s.mode = .bigEndian ↔ s.stat.extractLsb' 0 2 = 0b10#2)) ∧
  (∀ (d : Descriptor) (s t : State), perform d s = .next t →
    ∃ r, t.response = some r ∧ r.stat = t.stat) ∧
  (∀ (a : Word) (b : Byte) (s t : State), hostStore a b s = .next t → t.stat = s.stat) ∧
  State.reset.stat = 0x00#8

/-! ### Faults -/

/-- 60_exceptions.md section 1, the table of causes: the code of each fault, all different, none that of OK. -/
def Obligations.FaultCodesFollowTheTable : Prop :=
  [Cause.illegalCommand, .notInitialized, .alreadyInitialized, .probeInvalid, .countExceedsBuffer, .misaligned,
      .addressRange, .bufferOverlap, .encodeRange, .invalidEncoding, .intConvRange].map Cause.code =
    [0x01#8, 0x02#8, 0x03#8, 0x04#8, 0x05#8, 0x06#8, 0x07#8, 0x08#8, 0x09#8, 0x0A#8, 0x0B#8] ∧
  ∀ c d : Cause, c.code ≠ 0x00#8 ∧ (c.code = d.code → c = d)

/-- R204: a command whose status is not OK leaves MODE and MEM as they were and sets FLT; it has raised one of
the causes. -/
def Obligations.FaultingCommandChangesOnlyFlt : Prop :=
  ∀ (d : Descriptor) (s t : State) (r : Response), perform d s = .next t → t.response = some r →
    r.status ≠ 0x00#8 → ∃ c, FaultedWith c s t

/-- R205: after a fault every next descriptor does what it would have done had the faulting command never been
issued: the same MODE and MEM after it, the same status and, where OK, the same result. -/
def Obligations.FaultLeavesLaterCommandsUnaffected : Prop :=
  ∀ (d : Descriptor) (s t : State) (r : Response), perform d s = .next t → t.response = some r →
    r.status ≠ 0x00#8 →
      ∀ e : Descriptor, ∃ u v p q, perform e s = .next u ∧ perform e t = .next v ∧
        u.response = some p ∧ v.response = some q ∧ v.mode = u.mode ∧ v.mem = u.mem ∧
        q.status = p.status ∧ (p.status = 0x00#8 → q.result = p.result)

/-- R210: exactly one fault is reported, the first of the command's preconditions that is violated, decoding
before all; a command that violates none ends OK. -/
def Obligations.FirstViolatedPreconditionIsReported : Prop :=
  (∀ (d : Descriptor) (s : State), (∀ i, decode d ≠ .command i) →
    ∃ t, perform d s = .next t ∧ FaultedWith .illegalCommand s t) ∧
  (∀ (i : Instr) (s : State) (c : Cause), firstFault i s = some c →
    ∃ t, exec i s = .next t ∧ FaultedWith c s t) ∧
  ∀ (i : Instr) (s : State), firstFault i s = none →
    ∃ t r, exec i s = .next t ∧ t.response = some r ∧ r.status = 0x00#8 ∧ t.flt = s.flt

/-! ### INIT -/

/-- R100: AlreadyInitialized first; the two probe images set MODE; every other probe is ProbeInvalid. -/
def Obligations.InitSetsModeFromTheProbe : Prop :=
  ∀ (probe : Word) (s : State),
    (s.mode ≠ .uninit → ∃ t, exec (.init probe) s = .next t ∧ FaultedWith .alreadyInitialized s t) ∧
    (s.mode = .uninit →
      (probe = 0x00000001#32 →
        ∃ t, exec (.init probe) s = .next t ∧ AnsweredWith 0#32 { s with mode := .littleEndian } t) ∧
      (probe = 0x00000100#32 →
        ∃ t, exec (.init probe) s = .next t ∧ AnsweredWith 0#32 { s with mode := .bigEndian } t) ∧
      (probe ≠ 0x00000001#32 → probe ≠ 0x00000100#32 →
        ∃ t, exec (.init probe) s = .next t ∧ FaultedWith .probeInvalid s t))

/-- R101, R103: the image of PROBE_CONST a truthful host of order `o` presents makes MODE its order. -/
def Obligations.TruthfulProbeRecordsTheHostOrder : Prop :=
  hostProbe .littleEndian = 0x00000001#32 ∧ hostProbe .bigEndian = 0x00000100#32 ∧
    ∀ (o : ByteOrder) (s : State), s.mode = .uninit →
      ∃ t, exec (.init (hostProbe o)) s = .next t ∧ t.agreesWith o ∧
        AnsweredWith 0#32 { s with mode := t.mode } t

/-- R102: INIT's outcome is a function of MODE and the probe and of nothing else. -/
def Obligations.InitOutcomeDependsOnModeAndProbeOnly : Prop :=
  ∀ (probe : Word) (s u : State), s.mode = u.mode →
    ∃ t v r q, exec (.init probe) s = .next t ∧ exec (.init probe) u = .next v ∧
      t.response = some r ∧ v.response = some q ∧ t.mode = v.mode ∧ r.status = q.status ∧
      (r.status = 0x00#8 → r.result = q.result)

/-- R104: before INIT the six Float Truncator commands raise NotInitialized; CENC and CDEC never do. -/
def Obligations.ConversionsAreGatedByInit : Prop :=
  ∀ s : State,
    (s.mode = .uninit →
      (∀ src srcLen dst dstLen count,
        ∃ t, exec (.narrow src srcLen dst dstLen count) s = .next t ∧ FaultedWith .notInitialized s t) ∧
      (∀ src srcLen dst dstLen count,
        ∃ t, exec (.widen src srcLen dst dstLen count) s = .next t ∧ FaultedWith .notInitialized s t) ∧
      (∀ f, ∃ t, exec (.narrow1 f) s = .next t ∧ FaultedWith .notInitialized s t) ∧
      (∀ h, ∃ t, exec (.widen1 h) s = .next t ∧ FaultedWith .notInitialized s t) ∧
      (∀ n, ∃ t, exec (.fromint n) s = .next t ∧ FaultedWith .notInitialized s t) ∧
      (∀ h, ∃ t, exec (.toint h) s = .next t ∧ FaultedWith .notInitialized s t)) ∧
    (∀ n t r, exec (.cenc n) s = .next t → t.response = some r → r.status ≠ Cause.notInitialized.code) ∧
    ∀ v t r, exec (.cdec v) s = .next t → t.response = some r → r.status ≠ Cause.notInitialized.code

/-! ### The Float Truncator -/

/-- 41_float_truncator.md section 1, laws (a) to (e): for every pattern, and for (e) every finite one. -/
def Obligations.NarrowAndWidenLaws : Prop :=
  (∀ f : Word, widen (narrow f) = f &&& 0xFFFF0000#32) ∧
  (∀ h : Half, narrow (widen h) = h) ∧
  (∀ f : Word, narrow (widen (narrow f)) = narrow f) ∧
  (∀ f : Word, widen (narrow f) = f ↔ f.extractLsb' 0 16 = 0#16) ∧
  ∀ f : Word, f32Exp f ≠ 255#8 →
    f32Magnitude (widen (narrow f)) ≤ f32Magnitude f ∧ f32Sign (widen (narrow f)) = f32Sign f

/-- 41_float_truncator.md section 1, the table of classes: the kept fields are unchanged, and the class changes
only for a subnormal (to zero) and a NaN (to infinity) whose seven kept mantissa bits are zero. -/
def Obligations.NarrowKeepsFieldsAndMostClasses : Prop :=
  ∀ f : Word,
    halfSign (narrow f) = f32Sign f ∧ halfExp (narrow f) = f32Exp f ∧
    halfFrac (narrow f) = (f32Frac f).extractLsb' 16 7 ∧
    f32Class (widen (narrow f)) =
      match f32Class f with
      | .zero => .zero
      | .subnormal => if (f32Frac f).extractLsb' 16 7 = 0#7 then .zero else .subnormal
      | .normal => .normal
      | .infinity => .infinity
      | .nan => if (f32Frac f).extractLsb' 16 7 = 0#7 then .infinity else .nan

/-- R118: NARROW1 answers `0x0000 : f[31:16]` under either byte order, and NotInitialized before INIT. -/
def Obligations.Narrow1AnswersTheUpperHalf : Prop :=
  ∀ (f : Word) (s : State),
    (s.mode = .uninit → ∃ t, exec (.narrow1 f) s = .next t ∧ FaultedWith .notInitialized s t) ∧
    (s.mode ≠ .uninit →
      ∃ t, exec (.narrow1 f) s = .next t ∧ AnsweredWith (0x0000#16 ++ f.extractLsb' 16 16) s t)

/-- R120: WIDEN1 answers `h : 0x0000` under either byte order, and NotInitialized before INIT. -/
def Obligations.Widen1AppendsZeros : Prop :=
  ∀ (h : Half) (s : State),
    (s.mode = .uninit → ∃ t, exec (.widen1 h) s = .next t ∧ FaultedWith .notInitialized s t) ∧
    (s.mode ≠ .uninit → ∃ t, exec (.widen1 h) s = .next t ∧ AnsweredWith (h ++ 0x0000#16) s t)

/-- R51: the five checks of a bulk command in their order, on unbounded integers, for NARROW (4, 2) and WIDEN
(2, 4); a command that passes them ends OK and, with count 0, leaves MEM as it was. -/
def Obligations.BulkAdmissionMakesItsChecksInOrder : Prop :=
  ∀ (src srcLen dst dstLen count : Word) (s : State) (i : Instr) (ss ds : Nat),
    (i = .narrow src srcLen dst dstLen count ∧ ss = 4 ∧ ds = 2) ∨
      (i = .widen src srcLen dst dstLen count ∧ ss = 2 ∧ ds = 4) →
    ∃ t, exec i s = .next t ∧
      if s.mode = .uninit then FaultedWith .notInitialized s t
      else if count.toNat > srcLen.toNat ∨ count.toNat > dstLen.toNat then
        FaultedWith .countExceedsBuffer s t
      else if src.toNat % ss ≠ 0 ∨ dst.toNat % ds ≠ 0 then FaultedWith .misaligned s t
      else if src.toNat + ss * srcLen.toNat > s.memBytes ∨ dst.toNat + ds * dstLen.toNat > s.memBytes then
        FaultedWith .addressRange s t
      else if count.toNat ≥ 1 ∧ src.toNat < dst.toNat + ds * count.toNat ∧
          dst.toNat < src.toNat + ss * count.toNat then FaultedWith .bufferOverlap s t
      else WroteOnlyMemory s t ∧ (count.toNat = 0 → t.mem = s.mem)

/-- R110: an admitted NARROW writes, for each element, the two source bytes of the half that MODE selects,
in their memory order, and no other byte. -/
def Obligations.NarrowCopiesTheSelectedHalves : Prop :=
  ∀ (src srcLen dst dstLen count : Word) (s : State) (o : ByteOrder), s.mode = Mode.ofOrder o →
    count.toNat ≤ srcLen.toNat → count.toNat ≤ dstLen.toNat →
    src.toNat % 4 = 0 → dst.toNat % 2 = 0 →
    src.toNat + 4 * srcLen.toNat ≤ s.memBytes → dst.toNat + 2 * dstLen.toNat ≤ s.memBytes →
    (count.toNat = 0 ∨ dst.toNat + 2 * count.toNat ≤ src.toNat ∨ src.toNat + 4 * count.toNat ≤ dst.toNat) →
    ∃ t, exec (.narrow src srcLen dst dstLen count) s = .next t ∧ WroteOnlyMemory s t ∧
      SameOutside dst.toNat (dst.toNat + 2 * count.toNat) s.mem t.mem ∧
      ∀ i k, i < count.toNat → k < 2 →
        t.mem.readByte (dst.toNat + 2 * i + k) =
          s.mem.readByte (src.toNat + 4 * i + (if o = .bigEndian then 0 else 2) + k)

/-- R114: an admitted WIDEN writes all four bytes of each destination element, the two source bytes at the half
that MODE selects and zeros at the other, and no other byte. -/
def Obligations.WidenPlacesTheHalvesAndZeroFills : Prop :=
  ∀ (src srcLen dst dstLen count : Word) (s : State) (o : ByteOrder), s.mode = Mode.ofOrder o →
    count.toNat ≤ srcLen.toNat → count.toNat ≤ dstLen.toNat →
    src.toNat % 2 = 0 → dst.toNat % 4 = 0 →
    src.toNat + 2 * srcLen.toNat ≤ s.memBytes → dst.toNat + 4 * dstLen.toNat ≤ s.memBytes →
    (count.toNat = 0 ∨ dst.toNat + 4 * count.toNat ≤ src.toNat ∨ src.toNat + 2 * count.toNat ≤ dst.toNat) →
    ∃ t, exec (.widen src srcLen dst dstLen count) s = .next t ∧ WroteOnlyMemory s t ∧
      SameOutside dst.toNat (dst.toNat + 4 * count.toNat) s.mem t.mem ∧
      ∀ i k, i < count.toNat → k < 2 →
        t.mem.readByte (dst.toNat + 4 * i + (if o = .bigEndian then 0 else 2) + k) =
          s.mem.readByte (src.toNat + 2 * i + k) ∧
        t.mem.readByte (dst.toNat + 4 * i + (if o = .bigEndian then 2 else 0) + k) = 0x00#8

/-- R30, R49: only NARROW and WIDEN change MEM, and only the bytes of their `count` destination elements. -/
def Obligations.OnlyBulkCommandsWriteMemory : Prop :=
  ∀ (i : Instr) (s t : State) (a : Nat), exec i s = .next t → t.mem.readByte a ≠ s.mem.readByte a →
    (∃ src srcLen dst dstLen count, i = .narrow src srcLen dst dstLen count ∧
      dst.toNat ≤ a ∧ a < dst.toNat + 2 * count.toNat ∧ a < s.memBytes) ∨
    (∃ src srcLen dst dstLen count, i = .widen src srcLen dst dstLen count ∧
      dst.toNat ≤ a ∧ a < dst.toNat + 4 * count.toNat ∧ a < s.memBytes)

/-- 20_memory.md section 1, 41_float_truncator.md section 3: with `MODE = HOST_ORDER`, each element a bulk command
writes, read in the host's order, is what the scalar command answers for the source element read in it. -/
def Obligations.BulkAgreesWithScalarWhenModeIsHostOrder : Prop :=
  ∀ (src srcLen dst dstLen count : Word) (s t : State) (o : ByteOrder) (i : Nat), s.agreesWith o →
    i < count.toNat →
    (exec (.narrow src srcLen dst dstLen count) s = .next t → WroteOnlyMemory s t →
      ∃ u, exec (.narrow1 (val32 o
          (s.mem.readByte (src.toNat + 4 * i)) (s.mem.readByte (src.toNat + 4 * i + 1))
          (s.mem.readByte (src.toNat + 4 * i + 2)) (s.mem.readByte (src.toNat + 4 * i + 3)))) s = .next u ∧
        AnsweredWith (zext (val16 o (t.mem.readByte (dst.toNat + 2 * i))
          (t.mem.readByte (dst.toNat + 2 * i + 1)))) s u) ∧
    (exec (.widen src srcLen dst dstLen count) s = .next t → WroteOnlyMemory s t →
      ∃ u, exec (.widen1 (val16 o
          (s.mem.readByte (src.toNat + 2 * i)) (s.mem.readByte (src.toNat + 2 * i + 1)))) s = .next u ∧
        AnsweredWith (val32 o
          (t.mem.readByte (dst.toNat + 4 * i)) (t.mem.readByte (dst.toNat + 4 * i + 1))
          (t.mem.readByte (dst.toNat + 4 * i + 2)) (t.mem.readByte (dst.toNat + 4 * i + 3))) s u)

/-- 20_memory.md section 1: when MODE disagrees with the order `p` of the data, no fault is raised (a command that
violates no precondition of R210 ends OK, and none of them speaks of `p`) and each narrowed element, read
in the order of the data, is the low half of its source; each widened one has its source below. -/
def Obligations.WrongModeSelectsTheLowHalf : Prop :=
  ∀ (src srcLen dst dstLen count : Word) (s : State) (o p : ByteOrder), s.agreesWith o → p ≠ o →
    (firstFault (.narrow src srcLen dst dstLen count) s = none →
      ∃ t, exec (.narrow src srcLen dst dstLen count) s = .next t ∧ WroteOnlyMemory s t ∧
        ∀ i, i < count.toNat →
          val16 p (t.mem.readByte (dst.toNat + 2 * i)) (t.mem.readByte (dst.toNat + 2 * i + 1)) =
            (val32 p (s.mem.readByte (src.toNat + 4 * i)) (s.mem.readByte (src.toNat + 4 * i + 1))
              (s.mem.readByte (src.toNat + 4 * i + 2))
              (s.mem.readByte (src.toNat + 4 * i + 3))).extractLsb' 0 16) ∧
    (firstFault (.widen src srcLen dst dstLen count) s = none →
      ∃ t, exec (.widen src srcLen dst dstLen count) s = .next t ∧ WroteOnlyMemory s t ∧
        ∀ i, i < count.toNat →
          val32 p (t.mem.readByte (dst.toNat + 4 * i)) (t.mem.readByte (dst.toNat + 4 * i + 1))
              (t.mem.readByte (dst.toNat + 4 * i + 2)) (t.mem.readByte (dst.toNat + 4 * i + 3)) =
            0x0000#16 ++ val16 p (s.mem.readByte (src.toNat + 2 * i)) (s.mem.readByte (src.toNat + 2 * i + 1)))

/-- 41_float_truncator.md section 2 (R116), the bulk round trip, of `n` elements in buffers of any lengths that each
command accepts: after NARROW from X to Y and WIDEN from Y to Z, Z holds the source images with the bytes at
lo_off zero; after WIDEN from Y to Z and NARROW from Z to Y' (Y may itself be a NARROW's), Y' holds Y byte for
byte and the WIDEN left Y as it was. All this whatever the order of the data. -/
def Obligations.BulkRoundTripClearsTheLowHalves : Prop :=
  ∀ (x xLen y yLen yLen' z zLen zLen' y' y'Len n : Word) (o : ByteOrder) (s t u : State),
    s.mode = Mode.ofOrder o →
    (exec (.narrow x xLen y yLen n) s = .next t → WroteOnlyMemory s t →
      exec (.widen y yLen' z zLen n) t = .next u → WroteOnlyMemory t u →
      ∀ i k, i < n.toNat → k < 2 →
        u.mem.readByte (z.toNat + 4 * i + hiOff o + k) = s.mem.readByte (x.toNat + 4 * i + hiOff o + k) ∧
        u.mem.readByte (z.toNat + 4 * i + loOff o + k) = 0x00#8) ∧
    (exec (.widen y yLen z zLen n) s = .next t → WroteOnlyMemory s t →
      exec (.narrow z zLen' y' y'Len n) t = .next u → WroteOnlyMemory t u →
      ∀ i k, i < n.toNat → k < 2 →
        u.mem.readByte (y'.toNat + 2 * i + k) = s.mem.readByte (y.toNat + 2 * i + k) ∧
        t.mem.readByte (y.toNat + 2 * i + k) = s.mem.readByte (y.toNat + 2 * i + k))

/-- 20_memory.md section 2: repeating a successful bulk command succeeds again and writes the same bytes. -/
def Obligations.RepeatedBulkCommandIsIdempotent : Prop :=
  ∀ (src srcLen dst dstLen count : Word) (i : Instr) (s t : State),
    i = .narrow src srcLen dst dstLen count ∨ i = .widen src srcLen dst dstLen count →
    exec i s = .next t → WroteOnlyMemory s t →
      ∃ u, exec i t = .next u ∧ WroteOnlyMemory t u ∧ ∀ a, u.mem.readByte a = t.mem.readByte a

/-! ### The integer commands -/

/-- R141, at the default rounding: `i2f(i)` is a finite pattern nearest to `i`, the even one of two equally near,
+0 for 0; and under every rounding it is exact when `abs(i)` has at most 24 significant bits. Values are in
units of 2^(-149). -/
def Obligations.IntegerToFloatIsTheNearestFloat : Prop :=
  ∀ i : Int, -2 ^ 31 ≤ i → i ≤ 2 ^ 31 - 1 →
    f32Exp (i2f .nearestTiesToEven i) ≠ 255#8 ∧
    (i = 0 → i2f .nearestTiesToEven i = 0x00000000#32) ∧
    (∀ g : Word, f32Exp g ≠ 255#8 →
      |f32Value (i2f .nearestTiesToEven i) - i * 2 ^ 149| ≤ |f32Value g - i * 2 ^ 149|) ∧
    (∀ g : Word, f32Exp g ≠ 255#8 → f32Value g ≠ f32Value (i2f .nearestTiesToEven i) →
      |f32Value (i2f .nearestTiesToEven i) - i * 2 ^ 149| = |f32Value g - i * 2 ^ 149| →
        (i2f .nearestTiesToEven i).getLsbD 0 = false) ∧
    ∀ (rnd : Rounding) (k j : Nat), i.natAbs = k * 2 ^ j → k < 2 ^ 24 → f32Value (i2f rnd i) = i * 2 ^ 149

/-- R140: FROMINT answers the upper half of `i2f` of its operand; its exponent field is never 255, and 0 only for
the integer 0. -/
def Obligations.FromintAnswersTheTruncatedFloat : Prop :=
  ∀ (n : Word) (s : State), s.params.wellFormed = true →
    (s.mode = .uninit → ∃ t, exec (.fromint n) s = .next t ∧ FaultedWith .notInitialized s t) ∧
    (s.mode ≠ .uninit → ∃ t f, exec (.fromint n) s = .next t ∧
      f = i2f s.params.rounding (sval s.params.intW n) ∧
      AnsweredWith (0x0000#16 ++ f.extractLsb' 16 16) s t ∧
      f32Exp f ≠ 255#8 ∧ (f32Exp f = 0#8 ↔ sval s.params.intW n = 0))

/-- 42_int_wrappers.md section 1: for every integer of magnitude at most 255, FROMINT and CENC end in the same
state, with the same OK and the same result, under every rounding and every legal INT_W. -/
def Obligations.FromintAgreesWithCenc : Prop :=
  ∀ (n : Word) (s : State), s.mode ≠ .uninit → (sval s.params.intW n).natAbs ≤ 255 →
    ∃ v t, exec (.fromint n) s = .next t ∧ exec (.cenc n) s = .next t ∧ AnsweredWith v s t

/-- R145, R146: TOINT answers the integer of largest magnitude not above that of the value, with its sign, when
it fits INT_W bits; an infinity, a NaN and every other value raise IntConvRange; `mag` computes it. Derived: that the
result of an INT_W below 32 is extended with zeros to 32 bits is the model's reading of R6 and R9 (log entry 4). -/
def Obligations.TointTruncatesTowardZero : Prop :=
  (∀ (h : Half) (s : State), s.mode = .uninit →
    ∃ t, exec (.toint h) s = .next t ∧ FaultedWith .notInitialized s t) ∧
  (∀ (h : Half) (s : State), s.mode ≠ .uninit →
    ∃ t, exec (.toint h) s = .next t ∧
      if halfExp h = 255#8 then FaultedWith .intConvRange s t
      else ∃ (g : Nat) (n : Int),
        g * 2 ^ 149 ≤ f32Magnitude (widen h) ∧ f32Magnitude (widen h) < (g + 1) * 2 ^ 149 ∧
        n = (if halfSign h then -(g : Int) else (g : Int)) ∧
        if n < -2 ^ (s.params.intW - 1) ∨ n > 2 ^ (s.params.intW - 1) - 1 then FaultedWith .intConvRange s t
        else AnsweredWith (tc s.params.intW n) s t) ∧
  ∀ h : Half, 1 ≤ (halfExp h).toNat → (halfExp h).toNat ≤ 254 →
    mag h = f32Magnitude (widen h) / 2 ^ 149

/-- 42_int_wrappers.md section 2, round trip (a): an integer with at most 8 significant bits comes back from FROMINT
and then TOINT, under every rounding and every legal INT_W. That TOINT's result of an INT_W below 32 is extended with
zeros to 32 bits is the model's reading of R6 and R9 (log entry 4). -/
def Obligations.IntegerSurvivesFromintThenToint : Prop :=
  ∀ (n : Word) (s : State) (k j : Nat), s.params.wellFormed = true → s.mode ≠ .uninit → k ≤ 255 →
    (sval s.params.intW n).natAbs = k * 2 ^ j →
    ∃ h t u, exec (.fromint n) s = .next t ∧ AnsweredWith (zext h) s t ∧
      exec (.toint h) t = .next u ∧ AnsweredWith (tc s.params.intW (sval s.params.intW n)) t u

/-- 42_int_wrappers.md section 2, round trip (c): after TOINT has answered, FROMINT of its answer gives the operand
back exactly when the operand denotes an integer and is not negative zero. -/
def Obligations.HalfSurvivesTointThenFromintIffInteger : Prop :=
  ∀ (h : Half) (v : Word) (s t : State), s.params.wellFormed = true → s.mode ≠ .uninit →
    exec (.toint h) s = .next t → AnsweredWith v s t →
    ∃ h' u, exec (.fromint v) t = .next u ∧ AnsweredWith (zext h') t u ∧
      (h' = h ↔ h ≠ 0x8000#16 ∧ f32Magnitude (widen h) % 2 ^ 149 = 0)

/-! ### The Cryptic Integer Codec -/

/-- R160, R161: CENC of 0 is the zero pattern; a magnitude above 255 raises EncodeRange; otherwise the answer has
the sign, the exponent field p + 127 and the mantissa `(m - 2^p) << (7 - p)`, p the highest set bit. -/
def Obligations.CencPacksSignExponentAndMantissa : Prop :=
  ∀ (n : Word) (s : State) (i : Int), i = sval s.params.intW n →
    (i = 0 → ∃ t, exec (.cenc n) s = .next t ∧ AnsweredWith 0#32 s t) ∧
    (i.natAbs > 255 → ∃ t, exec (.cenc n) s = .next t ∧ FaultedWith .encodeRange s t) ∧
    (1 ≤ i.natAbs → i.natAbs ≤ 255 →
      ∃ t v p, exec (.cenc n) s = .next t ∧ AnsweredWith (0x0000#16 ++ v) s t ∧
        2 ^ p ≤ i.natAbs ∧ i.natAbs < 2 ^ (p + 1) ∧
        halfSign v = decide (i < 0) ∧ (halfExp v).toNat = p + 127 ∧
        (halfFrac v).toNat = (i.natAbs - 2 ^ p) * 2 ^ (7 - p))

/-- R165, R168: CDEC of the zero pattern is 0; a nonzero pattern with an exponent field outside 127 .. 134 raises
InvalidEncoding; otherwise the leading bit is put back above the right-aligned mantissa and the sign applied. Derived: that
the result of an INT_W below 32 is extended with zeros to 32 bits is the model's reading of R6 and R9 (log entry 4). -/
def Obligations.CdecUnpacksTheMagnitude : Prop :=
  ∀ (v : Half) (s : State),
    (v = 0x0000#16 → ∃ t, exec (.cdec v) s = .next t ∧ AnsweredWith 0#32 s t) ∧
    (v ≠ 0x0000#16 → (halfExp v).toNat < 127 ∨ 134 < (halfExp v).toNat →
      ∃ t, exec (.cdec v) s = .next t ∧ FaultedWith .invalidEncoding s t) ∧
    (∀ p : Nat, p ≤ 7 → (halfExp v).toNat = p + 127 →
      ∃ t m, exec (.cdec v) s = .next t ∧ m = (halfFrac v).toNat / 2 ^ (7 - p) + 2 ^ p ∧
        1 ≤ m ∧ m ≤ 255 ∧
        AnsweredWith (tc s.params.intW (if halfSign v then -(m : Int) else (m : Int))) s t)

/-- 43_cryptic_codec.md section 3, the laws: CDEC inverts CENC on -255 .. 255; CENC is injective there and its image
is the canonical patterns; CENC inverts CDEC exactly on them; negation flips bit 15. That CDEC's result of an INT_W
below 32 is extended with zeros to 32 bits is the model's reading of R6 and R9 (log entry 4). -/
def Obligations.CencAndCdecAreMutualInverses : Prop :=
  ∀ s : State, s.params.wellFormed = true →
    (∀ n : Word, (sval s.params.intW n).natAbs ≤ 255 →
      ∃ v t u, exec (.cenc n) s = .next t ∧ AnsweredWith (zext v) s t ∧
        exec (.cdec v) t = .next u ∧ AnsweredWith (tc s.params.intW (sval s.params.intW n)) t u) ∧
    (∀ (n m : Word) (v : Half) (t : State), exec (.cenc n) s = .next t → exec (.cenc m) s = .next t →
      AnsweredWith (zext v) s t → sval s.params.intW n = sval s.params.intW m) ∧
    (∀ v : Half, canonical v = true ↔
      ∃ n t, exec (.cenc n) s = .next t ∧ AnsweredWith (zext v) s t) ∧
    (∀ (v : Half) (x : Word) (t : State), exec (.cdec v) s = .next t → AnsweredWith x s t →
      ∃ w u, exec (.cenc x) t = .next u ∧ AnsweredWith (zext w) t u ∧ (w = v ↔ canonical v = true)) ∧
    ∀ (n m : Word) (v : Half) (t : State), sval s.params.intW n ≠ 0 →
      sval s.params.intW m = -sval s.params.intW n →
      exec (.cenc n) s = .next t → AnsweredWith (zext v) s t →
      ∃ u, exec (.cenc m) s = .next u ∧ AnsweredWith (zext (v ^^^ 0x8000#16)) s u

/-- R171: for a given W1, CENC and CDEC give the same status and result whatever MODE, FLT and MEM hold, write
neither, and the persisted form of a pattern is byte 0 = V[15:8], then byte 1 = V[7:0]. -/
def Obligations.CodecIgnoresModeAndMemory : Prop :=
  (∀ (i : Instr) (n : Word) (v : Half) (s u : State), i = .cenc n ∨ i = .cdec v → s.params = u.params →
    ∃ t w r q, exec i s = .next t ∧ exec i u = .next w ∧ t.response = some r ∧ w.response = some q ∧
      r.status = q.status ∧ (r.status = 0x00#8 → r.result = q.result) ∧
      t.mode = s.mode ∧ t.mem = s.mem ∧ r.stat = t.stat) ∧
  ∀ v : Half, ∃ b0 b1, persistedBytes v = [b0, b1] ∧ b0 = v.extractLsb' 8 8 ∧ b1 = v.extractLsb' 0 8 ∧
    val16 .bigEndian b0 b1 = v
end

