-- ==== Sys2Proof/Laws/Assembler.lean ====
section
/-! SUPPORT. What the assembler reads in the text it writes (spec/30_encoding.md rule R79): digits, numbers,
operand lists, and the white space around them. -/

namespace Sys2Proof.Machine

/-! ### Digits and numbers -/

/-- A character that separates nothing: no white space, no comma, no semicolon. -/
def asmPlain (c : Char) : Prop := asmBlank c = false ∧ c ≠ ',' ∧ c ≠ ';'

theorem asmDigit_digitChar {d : Nat} (h : d < 16) : asmDigit d.digitChar = some d := by
  interval_cases d <;> rfl

theorem digitChar_plain {d : Nat} (h : d < 16) : asmPlain d.digitChar ∧ d.digitChar ≠ '-' ∧ d.digitChar ≠ 'x' := by
  unfold asmPlain
  interval_cases d <;> decide

theorem asmDigits_append (b : Nat) (l r : List Char) :
    ∀ acc, asmDigits b acc (l ++ r) = (asmDigits b acc l).bind fun a => asmDigits b a r := by
  induction l with
  | nil => intro acc; rfl
  | cons c l ih =>
    intro acc
    simp only [List.cons_append, asmDigits]
    split
    · split
      · exact ih _
      · rfl
    · rfl

/-- The digits of a number read as that number. -/
theorem asmDigits_toDigits {b : Nat} (hb : 1 < b) (hb' : b ≤ 16) (n : Nat) :
    asmDigits b 0 (Nat.toDigits b n) = some n := by
  induction n using Nat.strong_induction_on with
  | _ n ih =>
    rw [Nat.toDigits_eq_if hb]
    split
    · rename_i h
      simp [asmDigits, asmDigit_digitChar (lt_of_lt_of_le h hb'), h]
    · rename_i h
      have hm : n % b < b := Nat.mod_lt _ (by omega)
      rw [asmDigits_append, ih _ (Nat.div_lt_self (by omega) hb)]
      simp [asmDigits, asmDigit_digitChar (lt_of_lt_of_le hm hb'), hm, Nat.div_add_mod']

theorem toDigits_plain {b : Nat} (hb : 1 < b) (hb' : b ≤ 16) (n : Nat) :
    ∀ c ∈ Nat.toDigits b n, asmPlain c ∧ c ≠ '-' ∧ c ≠ 'x' := by
  induction n using Nat.strong_induction_on with
  | _ n ih =>
    intro c hc
    rw [Nat.toDigits_eq_if hb] at hc
    split at hc
    · rename_i h
      rw [List.mem_singleton.1 hc]
      exact digitChar_plain (lt_of_lt_of_le h hb')
    · rcases List.mem_append.1 hc with hc | hc
      · exact ih _ (Nat.div_lt_self (by omega) hb) c hc
      · rw [List.mem_singleton.1 hc]
        exact digitChar_plain (lt_of_lt_of_le (Nat.mod_lt _ (by omega)) hb')

/-- A magnitude in either base reads as itself. -/
theorem asmMagnitude_decimal (n : Nat) : asmMagnitude (Nat.toDigits 10 n) = some n := by
  have h := toDigits_plain (b := 10) (by decide) (by decide) n
  have hd := asmDigits_toDigits (b := 10) (by decide) (by decide) n
  cases hl : Nat.toDigits 10 n with
  | nil => exact absurd hl Nat.toDigits_ne_nil
  | cons c l =>
    rw [hl] at h hd
    unfold asmMagnitude
    split
    · contradiction
    · rename_i heq
      cases heq
      exact absurd rfl (h 'x' (by simp)).2.2
    · exact hd

theorem asmMagnitude_hex (n : Nat) : asmMagnitude ('0' :: 'x' :: Nat.toDigits 16 n) = some n := by
  simp [asmMagnitude, Nat.toDigits_ne_nil, asmDigits_toDigits]

/-- The magnitude of a number as `numberText` writes it. -/
def magnitudeText (hex : Bool) (n : Nat) : List Char :=
  if hex then '0' :: 'x' :: Nat.toDigits 16 n else Nat.toDigits 10 n

theorem asmMagnitude_magnitudeText (hex : Bool) (n : Nat) : asmMagnitude (magnitudeText hex n) = some n := by
  cases hex
  · exact asmMagnitude_decimal n
  · exact asmMagnitude_hex n

theorem magnitudeText_plain (hex : Bool) (n : Nat) : ∀ c ∈ magnitudeText hex n, asmPlain c ∧ c ≠ '-' := by
  cases hex
  · exact fun c hc => ⟨(toDigits_plain (by decide) (by decide) n c hc).1,
      (toDigits_plain (by decide) (by decide) n c hc).2.1⟩
  · intro c hc
    simp only [magnitudeText, if_true, List.mem_cons] at hc
    rcases hc with rfl | rfl | hc
    · exact ⟨by unfold asmPlain; decide, by decide⟩
    · exact ⟨by unfold asmPlain; decide, by decide⟩
    · exact ⟨(toDigits_plain (by decide) (by decide) n c hc).1,
        (toDigits_plain (by decide) (by decide) n c hc).2.1⟩

theorem magnitudeText_ne_nil (hex : Bool) (n : Nat) : magnitudeText hex n ≠ [] := by
  cases hex <;> simp [magnitudeText, Nat.toDigits_ne_nil]

theorem numberText_eq (hex : Bool) (a : AsmNumber) :
    numberText hex a = (if a.1 then ['-'] else []) ++ magnitudeText hex a.2 := rfl

/-- What `numberText` writes, `asmNumber` reads. -/
theorem asmNumber_numberText (hex : Bool) (a : AsmNumber) : asmNumber (numberText hex a) = some a := by
  obtain ⟨neg, n⟩ := a
  have hm := asmMagnitude_magnitudeText hex n
  cases neg
  · simp only [numberText_eq, Bool.false_eq_true, if_false, List.nil_append]
    unfold asmNumber
    split
    · rename_i rest heq
      exact absurd rfl (magnitudeText_plain hex n '-' (by simp [heq])).2
    · simp [hm]
  · simp [numberText_eq, asmNumber, hm]

theorem numberText_plain (hex : Bool) (a : AsmNumber) : ∀ c ∈ numberText hex a, asmPlain c := by
  intro c hc
  rw [numberText_eq, List.mem_append] at hc
  rcases hc with hc | hc
  · obtain ⟨neg, n⟩ := a
    cases neg
    · simp at hc
    · simp only [if_true, List.mem_singleton] at hc
      subst hc
      unfold asmPlain
      decide
  · exact (magnitudeText_plain hex a.2 c hc).1

theorem numberText_ne_nil (hex : Bool) (a : AsmNumber) : numberText hex a ≠ [] := by
  simp [numberText_eq, magnitudeText_ne_nil]

/-! ### White space -/

theorem asmTrim_blank (l : List Char) : asmTrim (' ' :: l) = asmTrim l := rfl

theorem asmTrim_append_blank (l : List Char) : asmTrim (l ++ [' ']) = asmTrim l := by
  unfold asmTrim
  rw [List.dropWhile_append]
  split
  · rename_i h
    simp [List.isEmpty_iff.1 h, asmBlank]
  · simp [asmBlank]

/-- Text that starts and ends with no white space is its own trim. -/
theorem asmTrim_self {l : List Char} (h : ∀ c ∈ l.head?, asmBlank c = false)
    (h' : ∀ c ∈ l.getLast?, asmBlank c = false) : asmTrim l = l := by
  have drop : ∀ m : List Char, (∀ c ∈ m.head?, asmBlank c = false) → m.dropWhile asmBlank = m := by
    intro m hm
    cases m with
    | nil => rfl
    | cons c m => simp [hm c rfl]
  unfold asmTrim
  rw [drop l h, drop l.reverse (by simpa using h'), List.reverse_reverse]

theorem asmTrim_plain {l : List Char} (h : ∀ c ∈ l, asmPlain c) : asmTrim l = l :=
  asmTrim_self (fun c hc => (h c (List.mem_of_mem_head? hc)).1) fun c hc => (h c (List.mem_of_mem_getLast? hc)).1

/-! ### Operand lists -/

/-- The operands of `lineText`, with a comma and a space between. -/
def operandsText (operands : List (Bool × AsmNumber)) : List Char :=
  List.intercalate [',', ' '] (operands.map fun o => numberText o.1 o.2)

theorem asmFields_plain {l : List Char} (h : ∀ c ∈ l, asmPlain c) : asmFields l = [l] := by
  induction l with
  | nil => rfl
  | cons c l ih =>
    simp [asmFields, ih fun d hd => h d (List.mem_cons_of_mem _ hd), (h c (List.mem_cons_self ..)).2.1]

theorem asmFields_ne_nil (l : List Char) : asmFields l ≠ [] := by
  cases l with
  | nil => simp [asmFields]
  | cons c l =>
    simp only [asmFields]
    split
    · simp
    · split <;> simp

theorem asmFields_comma {l : List Char} (h : ∀ c ∈ l, asmPlain c) (r : List Char) :
    asmFields (l ++ ',' :: r) = l :: asmFields r := by
  induction l with
  | nil =>
    cases hr : asmFields r with
    | nil => exact absurd hr (asmFields_ne_nil r)
    | cons f fs => simp [asmFields, hr]
  | cons c l ih =>
    simp [asmFields, ih fun d hd => h d (List.mem_cons_of_mem _ hd), (h c (List.mem_cons_self ..)).2.1]

theorem asmFields_blank (l : List Char) :
    asmFields (' ' :: l) = match asmFields l with
      | [] => [[]]
      | f :: fs => (' ' :: f) :: fs := by
  cases h : asmFields l <;> simp [asmFields, h]

theorem asmNumbers_blank (l : List Char) : asmNumbers (asmFields (' ' :: l)) = asmNumbers (asmFields l) := by
  rw [asmFields_blank]
  cases h : asmFields l with
  | nil => exact absurd h (asmFields_ne_nil l)
  | cons f fs => simp [asmNumbers, asmTrim_blank]

/-- The operands as written read as the operands. -/
theorem asmNumbers_operandsText (o : Bool × AsmNumber) (operands : List (Bool × AsmNumber)) :
    asmNumbers (asmFields (operandsText (o :: operands))) = some ((o :: operands).map fun p => p.2) := by
  induction operands generalizing o with
  | nil =>
    simp [operandsText, asmFields_plain (numberText_plain o.1 o.2), asmNumbers,
      asmTrim_plain (numberText_plain o.1 o.2), asmNumber_numberText]
  | cons p operands ih =>
    have hsplit : operandsText (o :: p :: operands) =
        numberText o.1 o.2 ++ ',' :: ' ' :: operandsText (p :: operands) := by
      simp [operandsText, List.intercalate_cons_cons]
    rw [hsplit, asmFields_comma (numberText_plain o.1 o.2), asmNumbers, asmTrim_plain (numberText_plain o.1 o.2),
      asmNumber_numberText, asmNumbers_blank, ih p]
    rfl

theorem operandsText_no_comment (operands : List (Bool × AsmNumber)) : ∀ c ∈ operandsText operands, c ≠ ';' := by
  induction operands with
  | nil => simp [operandsText]
  | cons o operands ih =>
    intro c hc
    cases operands with
    | nil =>
      simp only [operandsText, List.map_cons, List.map_nil, List.intercalate_singleton] at hc
      exact (numberText_plain o.1 o.2 c hc).2.2
    | cons p operands =>
      simp only [operandsText, List.map_cons, List.intercalate_cons_cons, List.mem_append] at hc ih
      rcases hc with (hc | hc) | hc
      · exact (numberText_plain o.1 o.2 c hc).2.2
      · rintro rfl
        revert hc
        decide
      · exact ih c hc

theorem operandsText_head (o : Bool × AsmNumber) (operands : List (Bool × AsmNumber)) :
    ∃ c l, operandsText (o :: operands) = c :: l ∧ asmBlank c = false := by
  cases hn : numberText o.1 o.2 with
  | nil => exact absurd hn (numberText_ne_nil o.1 o.2)
  | cons c l =>
    have hc : asmBlank c = false := (numberText_plain o.1 o.2 c (by simp [hn])).1
    cases operands with
    | nil => exact ⟨c, l, by simp [operandsText, hn], hc⟩
    | cons p operands =>
      exact ⟨c, _, by simp only [operandsText, List.map_cons, List.intercalate_cons_cons, hn, List.cons_append]; rfl, hc⟩

theorem operandsText_last (o : Bool × AsmNumber) (operands : List (Bool × AsmNumber)) :
    ∃ l c, operandsText (o :: operands) = l ++ [c] ∧ asmBlank c = false := by
  induction operands generalizing o with
  | nil =>
    rcases List.eq_nil_or_concat (numberText o.1 o.2) with hn | ⟨l, c, hn⟩
    · exact absurd hn (numberText_ne_nil o.1 o.2)
    · exact ⟨l, c, by simp [operandsText, hn], (numberText_plain o.1 o.2 c (by simp [hn])).1⟩
  | cons p operands ih =>
    obtain ⟨l, c, h, hc⟩ := ih p
    refine ⟨numberText o.1 o.2 ++ [',', ' '] ++ l, c, ?_, hc⟩
    rw [List.append_assoc, ← h]
    simp [operandsText, List.intercalate_cons_cons]

theorem asmTrim_operandsText (operands : List (Bool × AsmNumber)) :
    asmTrim (operandsText operands) = operandsText operands := by
  cases operands with
  | nil => rfl
  | cons o operands =>
    obtain ⟨c, l, h, hc⟩ := operandsText_head o operands
    obtain ⟨m, d, h', hd⟩ := operandsText_last o operands
    apply asmTrim_self
    · rw [h]; rintro _ ⟨⟩; exact hc
    · rw [h']; simp [hd]

end Sys2Proof.Machine
end

