-- ==== Sys2Proof/Laws/Memory.lean ====
section
/-! SUPPORT. The laws of MEM: a write is read back, leaves every other address alone and keeps the
canonical form; two canonical memories with the same entries are the same data. -/

namespace Sys2Proof.Machine

@[simp] theorem Memory.lookup_nil (a : Nat) : Memory.lookup [] a = none := rfl

theorem Memory.lookup_cons (c : Host.Cell) (m : Memory) (a : Nat) :
    Memory.lookup (c :: m) a = if c.1 = a then some c.2 else m.lookup a := rfl

/-- What an address holds after a write. -/
theorem Memory.lookup_write (m : Memory) (a : Nat) (b : Byte) (x : Nat) :
    (m.write a b).lookup x = if x = a then some b else m.lookup x := by
  induction m with
  | nil => simp only [Memory.write, Memory.lookup, eq_comm (a := a)]
  | cons c rest ih =>
    rw [Memory.write]
    split
    · simp only [Memory.lookup_cons, eq_comm (a := a)]
    · split
      · rename_i hac
        subst hac
        simp only [Memory.lookup_cons, eq_comm (a := c.1)]
        split <;> rfl
      · rename_i hlt hne
        rw [Memory.lookup_cons, ih]
        by_cases h : x = a
        · simp [h, Ne.symm hne]
        · simp [h, Memory.lookup_cons]

/-- Reading after a write, at every address. -/
theorem Memory.readByte_write (m : Memory) (a : Nat) (b : Byte) (x : Nat) :
    (m.write a b).readByte x = if x = a then b else m.readByte x := by
  unfold Memory.readByte
  rw [Memory.lookup_write]
  split <;> rfl

@[simp] theorem Memory.readByte_write_same (m : Memory) (a : Nat) (b : Byte) :
    (m.write a b).readByte a = b := by simp [Memory.readByte_write]

theorem Memory.readByte_write_other (m : Memory) (a : Nat) (b : Byte) (x : Nat) (h : x ≠ a) :
    (m.write a b).readByte x = m.readByte x := by simp [Memory.readByte_write, h]

/-- A write adds no address but its own. -/
theorem Memory.mem_write (m : Memory) (a : Nat) (b : Byte) (c : Host.Cell) (h : c ∈ m.write a b) :
    c = (a, b) ∨ c ∈ m := by
  induction m with
  | nil => exact .inl (by simpa [Memory.write] using h)
  | cons d rest ih =>
    rw [Memory.write] at h
    split at h
    · simpa using h
    · split at h
      · rcases List.mem_cons.mp h with h | h
        · exact .inl h
        · exact .inr (List.mem_cons_of_mem _ h)
      · rcases List.mem_cons.mp h with h | h
        · exact .inr (h ▸ List.mem_cons_self)
        · exact (ih h).imp id (List.mem_cons_of_mem _)

/-- A write keeps the canonical form. -/
theorem Memory.write_wf (m : Memory) (a : Nat) (b : Byte) (h : m.wf) : (m.write a b).wf := by
  induction m with
  | nil => simp [Memory.write]
  | cons d rest ih =>
    obtain ⟨hd, hrest⟩ := List.pairwise_cons.mp h
    rw [Memory.write]
    split
    · rename_i hlt
      refine List.pairwise_cons.mpr ⟨?_, h⟩
      intro c hc
      rcases List.mem_cons.mp hc with rfl | hc
      · exact hlt
      · exact Nat.lt_trans hlt (hd c hc)
    · split
      · rename_i heq
        subst heq
        exact List.pairwise_cons.mpr ⟨hd, hrest⟩
      · rename_i hlt hne
        refine List.pairwise_cons.mpr ⟨?_, ih hrest⟩
        intro c hc
        rcases Memory.mem_write rest a b c hc with rfl | hc
        · exact Nat.lt_of_le_of_ne (Nat.le_of_not_lt hlt) (Ne.symm hne)
        · exact hd c hc

/-- In a canonical memory whose entries all lie above `a`, nothing is listed at `a`. -/
theorem Memory.lookup_below (m : Memory) (a : Nat) (h : ∀ c ∈ m, a < c.1) : m.lookup a = none := by
  induction m with
  | nil => rfl
  | cons c rest ih =>
    have hc : c.1 ≠ a := Nat.ne_of_gt (h c List.mem_cons_self)
    simp [Memory.lookup_cons, hc, ih fun d hd => h d (List.mem_cons_of_mem _ hd)]

/-- Two canonical memories with the same entry at every address are equal as data. -/
theorem Memory.ext_of_wf (m n : Memory) (hm : m.wf) (hn : n.wf) (h : ∀ a, m.lookup a = n.lookup a) :
    m = n := by
  induction m generalizing n with
  | nil =>
    cases n with
    | nil => rfl
    | cons d ns => exact absurd (h d.1) (by simp [Memory.lookup_cons])
  | cons c ms ih =>
    cases n with
    | nil => exact absurd (h c.1) (by simp [Memory.lookup_cons])
    | cons d ns =>
      obtain ⟨hc, hms⟩ := List.pairwise_cons.mp hm
      obtain ⟨hd, hns⟩ := List.pairwise_cons.mp hn
      have key : c.1 = d.1 := by
        rcases Nat.lt_trichotomy c.1 d.1 with hlt | heq | hgt
        · have hx := h c.1
          rw [Memory.lookup_below (d :: ns) c.1] at hx
          · simp [Memory.lookup_cons] at hx
          · intro e he
            rcases List.mem_cons.mp he with rfl | he
            · exact hlt
            · exact Nat.lt_trans hlt (hd e he)
        · exact heq
        · have hx := h d.1
          rw [Memory.lookup_below (c :: ms) d.1] at hx
          · simp [Memory.lookup_cons] at hx
          · intro e he
            rcases List.mem_cons.mp he with rfl | he
            · exact hgt
            · exact Nat.lt_trans hgt (hc e he)
      have hval : c.2 = d.2 := by
        have hx := h c.1
        simpa [Memory.lookup_cons, key] using hx
      have htail : ms = ns := by
        refine ih ns hms hns fun a => ?_
        have hx := h a
        rw [Memory.lookup_cons, Memory.lookup_cons, key] at hx
        by_cases ha : d.1 = a
        · rw [Memory.lookup_below ms a fun e he => by have := hc e he; omega,
            Memory.lookup_below ns a fun e he => by have := hd e he; omega]
        · simpa [ha] using hx
      exact List.cons_eq_cons.mpr ⟨Prod.ext key hval, htail⟩

end Sys2Proof.Machine
end

