-- ==== Sys2Proof/Laws/State.lean ====
section
/-! SUPPORT. One lemma per field per update of `State`, and what each update does to STATUS and MEM_BYTES,
so that no later proof unfolds a record update. -/

namespace Sys2Proof.Machine

@[simp] theorem State.withMode_mode (s : State) (m : Mode) : (s.withMode m).mode = m := rfl
@[simp] theorem State.withMode_flt (s : State) (m : Mode) : (s.withMode m).flt = s.flt := rfl
@[simp] theorem State.withMode_mem (s : State) (m : Mode) : (s.withMode m).mem = s.mem := rfl
@[simp] theorem State.withMode_response (s : State) (m : Mode) :
    (s.withMode m).response = s.response := rfl
@[simp] theorem State.withMode_inbox (s : State) (m : Mode) : (s.withMode m).inbox = s.inbox := rfl
@[simp] theorem State.withMode_draws (s : State) (m : Mode) : (s.withMode m).draws = s.draws := rfl
@[simp] theorem State.withMode_params (s : State) (m : Mode) : (s.withMode m).params = s.params := rfl
@[simp] theorem State.withMode_memBytes (s : State) (m : Mode) : (s.withMode m).memBytes = s.memBytes := rfl

@[simp] theorem State.withMem_mode (s : State) (m : Memory) : (s.withMem m).mode = s.mode := rfl
@[simp] theorem State.withMem_flt (s : State) (m : Memory) : (s.withMem m).flt = s.flt := rfl
@[simp] theorem State.withMem_mem (s : State) (m : Memory) : (s.withMem m).mem = m := rfl
@[simp] theorem State.withMem_response (s : State) (m : Memory) :
    (s.withMem m).response = s.response := rfl
@[simp] theorem State.withMem_inbox (s : State) (m : Memory) : (s.withMem m).inbox = s.inbox := rfl
@[simp] theorem State.withMem_draws (s : State) (m : Memory) : (s.withMem m).draws = s.draws := rfl
@[simp] theorem State.withMem_params (s : State) (m : Memory) : (s.withMem m).params = s.params := rfl
@[simp] theorem State.withMem_memBytes (s : State) (m : Memory) : (s.withMem m).memBytes = s.memBytes := rfl
@[simp] theorem State.withMem_stat (s : State) (m : Memory) : (s.withMem m).stat = s.stat := rfl

@[simp] theorem State.withInbox_mode (s : State) (l : List HostMove) :
    (s.withInbox l).mode = s.mode := rfl
@[simp] theorem State.withInbox_flt (s : State) (l : List HostMove) : (s.withInbox l).flt = s.flt := rfl
@[simp] theorem State.withInbox_mem (s : State) (l : List HostMove) : (s.withInbox l).mem = s.mem := rfl
@[simp] theorem State.withInbox_response (s : State) (l : List HostMove) :
    (s.withInbox l).response = s.response := rfl
@[simp] theorem State.withInbox_inbox (s : State) (l : List HostMove) : (s.withInbox l).inbox = l := rfl
@[simp] theorem State.withInbox_draws (s : State) (l : List HostMove) :
    (s.withInbox l).draws = s.draws := rfl
@[simp] theorem State.withInbox_params (s : State) (l : List HostMove) :
    (s.withInbox l).params = s.params := rfl
@[simp] theorem State.withInbox_memBytes (s : State) (l : List HostMove) : (s.withInbox l).memBytes = s.memBytes := rfl
@[simp] theorem State.withInbox_stat (s : State) (l : List HostMove) : (s.withInbox l).stat = s.stat := rfl

@[simp] theorem State.finish_mode (s : State) (v : Word) : (s.finish v).mode = s.mode := rfl
@[simp] theorem State.finish_flt (s : State) (v : Word) : (s.finish v).flt = s.flt := rfl
@[simp] theorem State.finish_mem (s : State) (v : Word) : (s.finish v).mem = s.mem := rfl
@[simp] theorem State.finish_response (s : State) (v : Word) :
    (s.finish v).response = some { status := 0x00#8, result := v, stat := s.stat } := rfl
@[simp] theorem State.finish_inbox (s : State) (v : Word) : (s.finish v).inbox = s.inbox := rfl
@[simp] theorem State.finish_draws (s : State) (v : Word) : (s.finish v).draws = s.draws := rfl
@[simp] theorem State.finish_params (s : State) (v : Word) : (s.finish v).params = s.params := rfl
@[simp] theorem State.finish_memBytes (s : State) (v : Word) : (s.finish v).memBytes = s.memBytes := rfl
@[simp] theorem State.finish_stat (s : State) (v : Word) : (s.finish v).stat = s.stat := rfl

@[simp] theorem State.raise_mode (s : State) (c : Cause) : (s.raise c).mode = s.mode := rfl
@[simp] theorem State.raise_flt (s : State) (c : Cause) : (s.raise c).flt = true := rfl
@[simp] theorem State.raise_mem (s : State) (c : Cause) : (s.raise c).mem = s.mem := rfl
@[simp] theorem State.raise_response (s : State) (c : Cause) :
    (s.raise c).response = some { status := c.code, result := Config.freeResult s.draws, stat := (s.raise c).stat } := rfl
@[simp] theorem State.raise_inbox (s : State) (c : Cause) : (s.raise c).inbox = s.inbox := rfl
@[simp] theorem State.raise_draws (s : State) (c : Cause) : (s.raise c).draws = s.draws + 1 := rfl
@[simp] theorem State.raise_params (s : State) (c : Cause) : (s.raise c).params = s.params := rfl
@[simp] theorem State.raise_memBytes (s : State) (c : Cause) : (s.raise c).memBytes = s.memBytes := rfl

/-- STATUS after a fault: FLT set, MODE as it was (R23). -/
theorem State.raise_stat (s : State) (c : Cause) : (s.raise c).stat = 0#5 ++ 1#1 ++ s.mode.bits := rfl

/-- STATUS after MODE is written (R23). -/
theorem State.withMode_stat (s : State) (m : Mode) :
    (s.withMode m).stat = 0#5 ++ BitVec.ofBool s.flt ++ m.bits := rfl

@[simp] theorem Mode.order_ofOrder (o : ByteOrder) : (Mode.ofOrder o).order = some o := by cases o <;> rfl

theorem Mode.order_eq_none (m : Mode) : m.order = none ↔ m = .uninit := by cases m <;> simp [Mode.order]

theorem Mode.order_eq_some (m : Mode) (o : ByteOrder) : m.order = some o ↔ m = Mode.ofOrder o := by
  cases m <;> cases o <;> simp [Mode.order, Mode.ofOrder]

/-- No cause has the code of OK (R201). -/
theorem Cause.code_ne_ok (c : Cause) : c.code ≠ 0x00#8 := by cases c <;> decide

/-- The codes are 0x01 to 0x0B (R201). -/
theorem Cause.code_range (c : Cause) : 1 ≤ c.code.toNat ∧ c.code.toNat ≤ 0x0B := by cases c <;> decide

/-- The code tells the cause (R201). -/
theorem Cause.code_injective (c d : Cause) (h : c.code = d.code) : c = d := by
  cases c <;> cases d <;> first | rfl | exact absurd h (by decide)

end Sys2Proof.Machine
end

