-- ==== Sys2Proof/Laws/Ops.lean ====
section
/-! SUPPORT. Once for each shared operation, everything it can do: the gate, the admission, a bulk command,
and the performing of a whole command (`exec_cases`), which later proofs cite instead of unfolding. -/

namespace Sys2Proof.Machine

/-- The gate refuses or goes on with the order MODE records (R104). -/
theorem State.gated_cases (s : State) (go : ByteOrder → State) :
    (s.mode = .uninit ∧ s.gated go = s.raise .notInitialized) ∨
      ∃ o, s.mode = Mode.ofOrder o ∧ s.gated go = go o := by
  unfold State.gated
  cases hm : s.mode
  · exact .inl ⟨rfl, rfl⟩
  · exact .inr ⟨.littleEndian, rfl, rfl⟩
  · exact .inr ⟨.bigEndian, rfl, rfl⟩

theorem State.gated_uninit (s : State) (go : ByteOrder → State) (h : s.mode = .uninit) :
    s.gated go = s.raise .notInitialized := by simp [State.gated, h, Mode.order]

theorem State.gated_ofOrder (s : State) (go : ByteOrder → State) (o : ByteOrder) (h : s.mode = Mode.ofOrder o) :
    s.gated go = go o := by simp [State.gated, h]

/-- What admission grants (R51): counts within the buffers, aligned, inside MEM, accessed bytes apart. -/
theorem State.admission_eq_none (s : State) (ss ds src srcLen dst dstLen count : Nat) :
    s.admission ss ds src srcLen dst dstLen count = none ↔
      (count ≤ srcLen ∧ count ≤ dstLen) ∧ (src % ss = 0 ∧ dst % ds = 0) ∧
        (src + ss * srcLen ≤ s.memBytes ∧ dst + ds * dstLen ≤ s.memBytes) ∧
          (count = 0 ∨ dst + ds * count ≤ src ∨ src + ss * count ≤ dst) := by
  unfold State.admission
  split
  · simp; omega
  · split
    · simp; omega
    · split
      · simp; omega
      · split
        · simp; omega
        · simp; omega

/-- What a bulk command does: it refuses at the gate, or at admission, or converts and answers OK. -/
theorem State.bulk_cases (s : State) (ss ds : Nat) (src srcLen dst dstLen count : Word)
    (convert : ByteOrder → Memory → Memory) :
    (s.mode = .uninit ∧
        s.bulk ss ds src srcLen dst dstLen count convert = s.raise .notInitialized) ∨
      ∃ o, s.mode = Mode.ofOrder o ∧
        ((∃ c, s.admission ss ds src.toNat srcLen.toNat dst.toNat dstLen.toNat count.toNat = some c ∧
            s.bulk ss ds src srcLen dst dstLen count convert = s.raise c) ∨
          (s.admission ss ds src.toNat srcLen.toNat dst.toNat dstLen.toNat count.toNat = none ∧
            s.bulk ss ds src srcLen dst dstLen count convert =
              (s.withMem (convert o s.mem)).finish 0#32)) := by
  unfold State.bulk
  rcases s.gated_cases (fun o =>
    s.unless (s.admission ss ds src.toNat srcLen.toNat dst.toNat dstLen.toNat count.toNat)
      ((s.withMem (convert o s.mem)).finish 0#32)) with ⟨hm, hg⟩ | ⟨o, hm, hg⟩
  · exact .inl ⟨hm, hg⟩
  · refine .inr ⟨o, hm, ?_⟩
    rw [hg]
    cases ha : s.admission ss ds src.toNat srcLen.toNat dst.toNat dstLen.toNat count.toNat with
    | some c => exact .inl ⟨c, rfl, rfl⟩
    | none => exact .inr ⟨rfl, rfl⟩

/-- TOINT after the gate: it raises IntConvRange or answers, and writes nothing else (R145). -/
theorem tointAnswer_cases (h : Half) (s : State) :
    tointAnswer h s = s.raise .intConvRange ∨
      ∃ n, f2i h = some n ∧ -2 ^ (s.params.intW - 1) ≤ n ∧ n ≤ 2 ^ (s.params.intW - 1) - 1 ∧
        tointAnswer h s = s.finish (tc s.params.intW n) := by
  unfold tointAnswer
  cases hf : f2i h with
  | none => exact .inl rfl
  | some n =>
    by_cases hr : n < -2 ^ (s.params.intW - 1) ∨ 2 ^ (s.params.intW - 1) - 1 < n
    · exact .inl (if_pos hr)
    · exact .inr ⟨n, rfl, by omega, by omega, if_neg hr⟩

/-- Everything a command can do: raise a cause; answer a value and change nothing else; as a successful
INIT, set MODE; as an admitted bulk command, convert MEM. -/
theorem exec_cases (i : Instr) (s : State) :
    (∃ c, exec i s = .next (s.raise c)) ∨
      (∃ v, exec i s = .next (s.finish v)) ∨
      (∃ probe o, i = .init probe ∧ s.mode = .uninit ∧ probe = hostProbe o ∧
        exec i s = .next ((s.withMode (Mode.ofOrder o)).finish 0#32)) ∨
      (∃ src srcLen dst dstLen count o, i = .narrow src srcLen dst dstLen count ∧ s.mode = Mode.ofOrder o ∧
        s.admission 4 2 src.toNat srcLen.toNat dst.toNat dstLen.toNat count.toNat = none ∧
        exec i s =
          .next ((s.withMem (narrowElements o src.toNat dst.toNat count.toNat s.mem)).finish 0#32)) ∨
      (∃ src srcLen dst dstLen count o, i = .widen src srcLen dst dstLen count ∧ s.mode = Mode.ofOrder o ∧
        s.admission 2 4 src.toNat srcLen.toNat dst.toNat dstLen.toNat count.toNat = none ∧
        exec i s =
          .next ((s.withMem (widenElements o src.toNat dst.toNat count.toNat s.mem)).finish 0#32)) := by
  cases i with
  | init probe =>
    show (∃ c, execInit probe s = _) ∨ _
    cases hm : s.mode with
    | uninit =>
      by_cases h1 : probe = 0x00000001#32
      · exact .inr (.inr (.inl ⟨probe, .littleEndian, rfl, rfl, by rw [h1]; decide,
          by simp [exec, execInit, hm, h1, Mode.ofOrder]⟩))
      · by_cases h2 : probe = 0x00000100#32
        · exact .inr (.inr (.inl ⟨probe, .bigEndian, rfl, rfl, by rw [h2]; decide,
            by simp [exec, execInit, hm, h2, Mode.ofOrder]⟩))
        · exact .inl ⟨.probeInvalid, by simp [execInit, hm, h1, h2]⟩
    | littleEndian => exact .inl ⟨.alreadyInitialized, by simp [execInit, hm]⟩
    | bigEndian => exact .inl ⟨.alreadyInitialized, by simp [execInit, hm]⟩
  | narrow src srcLen dst dstLen count =>
    rcases s.bulk_cases 4 2 src srcLen dst dstLen count
      (fun o => narrowElements o src.toNat dst.toNat count.toNat) with
      ⟨_, h⟩ | ⟨o, hm, ⟨c, _, h⟩ | ⟨ha, h⟩⟩
    · exact .inl ⟨_, congrArg _ h⟩
    · exact .inl ⟨_, congrArg _ h⟩
    · exact .inr (.inr (.inr (.inl ⟨src, srcLen, dst, dstLen, count, o, rfl, hm, ha, congrArg _ h⟩)))
  | widen src srcLen dst dstLen count =>
    rcases s.bulk_cases 2 4 src srcLen dst dstLen count
      (fun o => widenElements o src.toNat dst.toNat count.toNat) with
      ⟨_, h⟩ | ⟨o, hm, ⟨c, _, h⟩ | ⟨ha, h⟩⟩
    · exact .inl ⟨_, congrArg _ h⟩
    · exact .inl ⟨_, congrArg _ h⟩
    · exact .inr (.inr (.inr (.inr ⟨src, srcLen, dst, dstLen, count, o, rfl, hm, ha, congrArg _ h⟩)))
  | narrow1 f =>
    rcases s.gated_cases (fun _ => s.finish (zext (narrow f))) with ⟨_, h⟩ | ⟨_, _, h⟩
    · exact .inl ⟨_, congrArg _ h⟩
    · exact .inr (.inl ⟨_, congrArg _ h⟩)
  | widen1 x =>
    rcases s.gated_cases (fun _ => s.finish (widen x)) with ⟨_, h⟩ | ⟨_, _, h⟩
    · exact .inl ⟨_, congrArg _ h⟩
    · exact .inr (.inl ⟨_, congrArg _ h⟩)
  | fromint n =>
    rcases s.gated_cases
      (fun _ => s.finish (zext (narrow (i2f s.params.rounding (sval s.params.intW n))))) with
      ⟨_, h⟩ | ⟨_, _, h⟩
    · exact .inl ⟨_, congrArg _ h⟩
    · exact .inr (.inl ⟨_, congrArg _ h⟩)
  | toint x =>
    rcases s.gated_cases (fun _ => tointAnswer x s) with ⟨_, h⟩ | ⟨_, _, h⟩
    · exact .inl ⟨_, congrArg _ h⟩
    · rcases tointAnswer_cases x s with ht | ⟨n, _, _, _, ht⟩
      · exact .inl ⟨_, congrArg _ (h.trans ht)⟩
      · exact .inr (.inl ⟨_, congrArg _ (h.trans ht)⟩)
  | cenc n =>
    simp only [exec, execCenc]
    split
    · exact .inr (.inl ⟨_, rfl⟩)
    · split
      · exact .inl ⟨_, rfl⟩
      · exact .inr (.inl ⟨_, rfl⟩)
  | cdec v =>
    simp only [exec, execCdec]
    split
    · exact .inr (.inl ⟨_, rfl⟩)
    · split
      · exact .inr (.inl ⟨_, rfl⟩)
      · exact .inl ⟨_, rfl⟩

end Sys2Proof.Machine
end

