-- ==== Sys2Proof/Laws/Bulk.lean ====
section
/-! SUPPORT. What the two bulk conversions do to MEM: one parallel assignment of the destination (R55), no
other byte, the canonical form kept. -/

namespace Sys2Proof.Machine

theorem hiOff_cases (o : ByteOrder) : (hiOff o = 0 ∧ loOff o = 2) ∨ (hiOff o = 2 ∧ loOff o = 0) := by
  cases o <;> simp [hiOff, loOff]

/-- One narrowed element, at every address (R42). -/
theorem narrowElement_readByte (o : ByteOrder) (src dst i : Nat) (m : Memory) (x : Nat) :
    (narrowElement o src dst i m).readByte x =
      if x = dst + 2 * i then m.readByte (src + 4 * i + hiOff o)
      else if x = dst + 2 * i + 1 then m.readByte (src + 4 * i + hiOff o + 1)
      else m.readByte x := by
  simp only [narrowElement, Memory.readByte_write]
  split
  · rename_i h
    rw [if_neg (by omega)]
  · rfl

/-- One widened element, at every address (R42). -/
theorem widenElement_readByte (o : ByteOrder) (src dst i : Nat) (m : Memory) (x : Nat) :
    (widenElement o src dst i m).readByte x =
      if x = dst + 4 * i + hiOff o then m.readByte (src + 2 * i)
      else if x = dst + 4 * i + hiOff o + 1 then m.readByte (src + 2 * i + 1)
      else if x = dst + 4 * i + loOff o ∨ x = dst + 4 * i + loOff o + 1 then 0x00#8
      else m.readByte x := by
  simp only [widenElement, Memory.readByte_write]
  rcases hiOff_cases o with ⟨hh, hl⟩ | ⟨hh, hl⟩ <;> rw [hh, hl] <;> split_ifs <;> first | rfl | omega

/-- R55, R110: narrowing `n` elements whose source bytes are apart from their destination bytes is one
parallel assignment: every destination byte from the source as it was, every other byte unchanged. -/
theorem narrowElements_readByte (o : ByteOrder) (src dst n : Nat) (m : Memory)
    (hd : n = 0 ∨ dst + 2 * n ≤ src ∨ src + 4 * n ≤ dst) (x : Nat) :
    (narrowElements o src dst n m).readByte x =
      if dst ≤ x ∧ x < dst + 2 * n then
        m.readByte (src + 4 * ((x - dst) / 2) + hiOff o + (x - dst) % 2)
      else m.readByte x := by
  induction n generalizing x with
  | zero => rw [if_neg (by omega)]; rfl
  | succ n ih =>
    have ih := ih (by omega)
    have hh : hiOff o ≤ 2 := by cases o <;> simp [hiOff]
    rw [narrowElements, narrowElement_readByte]
    split
    · rename_i hx
      rw [ih, if_neg (by omega), if_pos (by omega)]
      congr 1
      omega
    · split
      · rename_i hx
        rw [ih, if_neg (by omega), if_pos (by omega)]
        congr 1
        omega
      · rw [ih]
        by_cases hin : dst ≤ x ∧ x < dst + 2 * n
        · rw [if_pos hin, if_pos (by omega)]
        · rw [if_neg hin, if_neg (by omega)]

/-- R55, R114: widening `n` elements whose source bytes are apart from their destination bytes is one
parallel assignment: the upper half of each destination element from the source, zeros below. -/
theorem widenElements_readByte (o : ByteOrder) (src dst n : Nat) (m : Memory)
    (hd : n = 0 ∨ dst + 4 * n ≤ src ∨ src + 2 * n ≤ dst) (x : Nat) :
    (widenElements o src dst n m).readByte x =
      if dst ≤ x ∧ x < dst + 4 * n then
        (if hiOff o ≤ (x - dst) % 4 ∧ (x - dst) % 4 < hiOff o + 2 then
          m.readByte (src + 2 * ((x - dst) / 4) + ((x - dst) % 4 - hiOff o))
        else 0x00#8)
      else m.readByte x := by
  induction n generalizing x with
  | zero => rw [if_neg (by omega)]; rfl
  | succ n ih =>
    have ih := ih (by omega)
    rw [widenElements, widenElement_readByte]
    rcases hiOff_cases o with ⟨hh, hl⟩ | ⟨hh, hl⟩ <;> rw [hh] at ih ⊢ <;> rw [hl]
    all_goals
      split
      · rename_i hx
        rw [ih, if_neg (by omega), if_pos (by omega), if_pos (by omega)]
        congr 1
        omega
      · split
        · rename_i hx
          rw [ih, if_neg (by omega), if_pos (by omega), if_pos (by omega)]
          congr 1
          omega
        · split
          · rename_i hx
            rw [if_pos (by omega), if_neg (by omega)]
          · rw [ih]
            by_cases hin : dst ≤ x ∧ x < dst + 4 * n
            · rw [if_pos hin, if_pos (show dst ≤ x ∧ x < dst + 4 * (n + 1) by omega)]
            · rw [if_neg hin, if_neg (show ¬(dst ≤ x ∧ x < dst + 4 * (n + 1)) by omega)]

theorem narrowElement_wf (o : ByteOrder) (src dst i : Nat) (m : Memory) (h : m.wf) :
    (narrowElement o src dst i m).wf := Memory.write_wf _ _ _ (Memory.write_wf _ _ _ h)

theorem widenElement_wf (o : ByteOrder) (src dst i : Nat) (m : Memory) (h : m.wf) :
    (widenElement o src dst i m).wf :=
  Memory.write_wf _ _ _ (Memory.write_wf _ _ _ (Memory.write_wf _ _ _ (Memory.write_wf _ _ _ h)))

/-- Narrowing keeps the canonical form. -/
theorem narrowElements_wf (o : ByteOrder) (src dst n : Nat) (m : Memory) (h : m.wf) :
    (narrowElements o src dst n m).wf := by
  induction n with
  | zero => exact h
  | succ n ih => exact narrowElement_wf o src dst n _ ih

/-- Widening keeps the canonical form. -/
theorem widenElements_wf (o : ByteOrder) (src dst n : Nat) (m : Memory) (h : m.wf) :
    (widenElements o src dst n m).wf := by
  induction n with
  | zero => exact h
  | succ n ih => exact widenElement_wf o src dst n _ ih

/-- Narrowing lists no address but those of the destination. -/
theorem narrowElements_mem (o : ByteOrder) (src dst n : Nat) (m : Memory) (c : Host.Cell)
    (h : c ∈ narrowElements o src dst n m) : c ∈ m ∨ (dst ≤ c.1 ∧ c.1 < dst + 2 * n) := by
  induction n with
  | zero => exact .inl h
  | succ n ih =>
    rcases Memory.mem_write _ _ _ _ h with rfl | h
    · right; simp only; omega
    · rcases Memory.mem_write _ _ _ _ h with rfl | h
      · right; simp only; omega
      · exact (ih h).imp id fun ⟨h1, h2⟩ => ⟨h1, by omega⟩

/-- Widening lists no address but those of the destination. -/
theorem widenElements_mem (o : ByteOrder) (src dst n : Nat) (m : Memory) (c : Host.Cell)
    (h : c ∈ widenElements o src dst n m) : c ∈ m ∨ (dst ≤ c.1 ∧ c.1 < dst + 4 * n) := by
  induction n with
  | zero => exact .inl h
  | succ n ih =>
    have ho := hiOff_cases o
    rcases Memory.mem_write _ _ _ _ h with rfl | h
    · right; simp only; omega
    · rcases Memory.mem_write _ _ _ _ h with rfl | h
      · right; simp only; omega
      · rcases Memory.mem_write _ _ _ _ h with rfl | h
        · right; simp only; omega
        · rcases Memory.mem_write _ _ _ _ h with rfl | h
          · right; simp only; omega
          · exact (ih h).imp id fun ⟨h1, h2⟩ => ⟨h1, by omega⟩

end Sys2Proof.Machine
end

