-- ==== Sys2Proof/Laws/PerInstr.lean ====
section
/-! SUPPORT. The per-instruction family EncodeAssembled: the encoder writes, for every command, a legal
descriptor whose unused words and bits are zero (spec/30_encoding.md rules R71, R76, R79). -/

namespace Sys2Proof.Laws.EncodeAssembled

/-- The encoding of a command is a legal descriptor, written as an assembler writes it. -/
def Statement (i : Instr) : Prop :=
  i.wellFormed = true ∧ (encode i).legal = true ∧ (encode i).assembled = true

theorem init (probe : Word) : Statement (.init probe) := ⟨rfl, rfl, rfl⟩

theorem narrow (src srcLen dst dstLen count : Word) : Statement (.narrow src srcLen dst dstLen count) :=
  ⟨rfl, rfl, rfl⟩

theorem widen (src srcLen dst dstLen count : Word) : Statement (.widen src srcLen dst dstLen count) :=
  ⟨rfl, rfl, rfl⟩

theorem narrow1 (f : Word) : Statement (.narrow1 f) := ⟨rfl, rfl, rfl⟩

/-- A half-word extended with zeros is below 2^16. -/
theorem half_fits (h : Half) : (h.setWidth 32).toNat < 65536 := by
  have := h.isLt
  simp only [BitVec.toNat_setWidth]
  omega

theorem widen1 (h : Half) : Statement (.widen1 h) := by
  refine ⟨rfl, rfl, ?_⟩
  simpa [encode, scalarDescriptor, Descriptor.assembled] using half_fits h

theorem fromint (i : Word) : Statement (.fromint i) := ⟨rfl, rfl, rfl⟩

theorem toint (h : Half) : Statement (.toint h) := by
  refine ⟨rfl, rfl, ?_⟩
  simpa [encode, scalarDescriptor, Descriptor.assembled] using half_fits h

theorem cenc (n : Word) : Statement (.cenc n) := ⟨rfl, rfl, rfl⟩

theorem cdec (v : Half) : Statement (.cdec v) := by
  refine ⟨rfl, rfl, ?_⟩
  simpa [encode, scalarDescriptor, Descriptor.assembled] using half_fits v

end Sys2Proof.Laws.EncodeAssembled
end

