-- ==== Sys2Proof/Tests/Slice0.lean ====
section
/-! SUPPORT. The model's own tests: decoding of descriptors written out from spec/30_encoding.md and
spec/95_test_vectors.md, the well-formedness smoke, at most two single steps per command with results from
spec/95_test_vectors.md, and for every statement with hypotheses a concrete state and operands that meet them.
No expected result here was taken from the model. -/

namespace Sys2Proof.Tests

open Sys2Proof Sys2Proof.Machine

/-- A block of 0x1000 bytes (95_test_vectors.md, MEM_BYTES = 0x1000) in a given MODE with a given MEM. -/
def block (m : Mode) (mem : Memory) : State :=
  { mode := m, flt := false, mem := mem, response := none, inbox := [], draws := 0,
    params := { memLast := 0xFFF#32, intW := 32, rounding := .nearestTiesToEven } }

/-- The four bytes of 0x40490E56 stored little-endian at 0x100. -/
def piBytes : Memory := [(0x100, 0x56#8), (0x101, 0x0E#8), (0x102, 0x49#8), (0x103, 0x40#8)]

/-- Status and STATUS of the response. -/
def statusOf : Host.Outcome State Fault Refusal → Option (Byte × Byte)
  | .next t => t.response.map fun r => (r.status, r.stat)
  | .fault _ => none
  | .refused _ => none

/-- The result of a response whose status is OK. -/
def resultOf : Host.Outcome State Fault Refusal → Option Word
  | .next t => t.response.bind fun r => if r.status = 0x00#8 then some r.result else none
  | .fault _ => none
  | .refused _ => none

/-- One byte of MEM after the step. -/
def byteOf (a : Nat) : Host.Outcome State Fault Refusal → Option Byte
  | .next t => t.mem.lookup a
  | .fault _ => none
  | .refused _ => none

/-- Six words, as 95_test_vectors.md writes a descriptor. -/
def words (w0 w1 w2 w3 w4 w5 : Word) : Descriptor := ⟨w0, w1, w2, w3, w4, w5⟩

/-! ### Decoding: words written out from R71, R74, R75 -/

theorem test_decode_init :
    decode (words 0x00000001#32 0x00000001#32 0#32 0#32 0#32 0#32) = .command (.init 1#32) := by decide
theorem test_decode_narrow :
    decode (words 0x00000002#32 0x100#32 3#32 0x200#32 4#32 2#32) =
      .command (.narrow 0x100#32 3#32 0x200#32 4#32 2#32) := by decide
theorem test_decode_widen :
    decode (words 0x00000003#32 0x200#32 4#32 0x300#32 5#32 3#32) =
      .command (.widen 0x200#32 4#32 0x300#32 5#32 3#32) := by decide
theorem test_decode_narrow1 :
    decode (words 0x00000004#32 0x40490E56#32 0#32 0#32 0#32 0#32) =
      .command (.narrow1 0x40490E56#32) := by decide
theorem test_decode_widen1_ignores_high_half :
    decode (words 0x00000005#32 0xABCD4049#32 0#32 0#32 0#32 0#32) = .command (.widen1 0x4049#16) := by decide
theorem test_decode_fromint :
    decode (words 0x00000006#32 0xFFFFFED4#32 0#32 0#32 0#32 0#32) =
      .command (.fromint 0xFFFFFED4#32) := by decide
theorem test_decode_toint :
    decode (words 0x00000007#32 0x0000447A#32 0#32 0#32 0#32 0#32) = .command (.toint 0x447A#16) := by decide
theorem test_decode_cenc_ignores_w2_to_w5 :
    decode (words 0x00000008#32 5#32 0xDEADBEEF#32 0x12345678#32 0xFFFFFFFF#32 1#32) =
      .command (.cenc 5#32) := by decide
theorem test_decode_cdec :
    decode (words 0x00000009#32 0xFFFF40A0#32 0#32 0#32 0#32 0#32) = .command (.cdec 0x40A0#16) := by decide
theorem test_decode_opcode_zero :
    decode (words 0#32 0#32 0#32 0#32 0#32 0#32) = .illegal (.reservedOpcode 0#8) := by decide
theorem test_decode_first_reserved :
    decode (words 0x0000000A#32 0#32 0#32 0#32 0#32 0#32) = .illegal (.reservedOpcode 0x0A#8) := by decide
theorem test_decode_high_bits :
    decode (words 0x00000108#32 5#32 0#32 0#32 0#32 0#32) = .illegal .nonzeroHighBits := by decide
theorem test_table_word : decodeTableWord 32 0x00000009 = some (.cdec 0#16) := by decide
theorem test_table_word_counts_on : decodeTableWord 64 0x0000000500000008 = some (.cenc 5#32) := by decide

/-! ### Well-formedness smoke: one ill-formed term for each check -/

theorem test_legal_refuses_opcode_zero : (words 0#32 0#32 0#32 0#32 0#32 0#32).legal = false := by decide
theorem test_legal_refuses_reserved : (words 10#32 0#32 0#32 0#32 0#32 0#32).legal = false := by decide
theorem test_legal_refuses_high_bits : (words 0x80000004#32 0#32 0#32 0#32 0#32 0#32).legal = false := by decide
theorem test_assembled_refuses_unused_word :
    (words 8#32 5#32 0#32 0#32 0#32 1#32).assembled = false := by decide
theorem test_assembled_refuses_high_half :
    (words 5#32 0xABCD4049#32 0#32 0#32 0#32 0#32).assembled = false := by decide
theorem test_params_refuse_narrow_int :
    Params.wellFormed { memLast := 0#32, intW := 9, rounding := .other } = false := by decide
theorem test_params_refuse_wide_int :
    Params.wellFormed { memLast := 0#32, intW := 33, rounding := .other } = false := by decide

/-! ### Commands (95_test_vectors.md) -/

theorem test_init_big_endian :
    statusOf (exec (.init 0x100#32) (block .uninit [])) = some (0x00#8, 0x02#8) := by decide
theorem test_init_twice :
    statusOf (exec (.init 1#32) (block .littleEndian [])) = some (0x03#8, 0x05#8) := by decide
theorem test_narrow_little_endian :
    byteOf 0x200 (exec (.narrow 0x100#32 1#32 0x200#32 1#32 1#32) (block .littleEndian piBytes)) =
      some 0x49#8 := by decide
theorem test_narrow_wrong_mode :
    byteOf 0x200 (exec (.narrow 0x100#32 1#32 0x200#32 1#32 1#32) (block .bigEndian piBytes)) =
      some 0x56#8 := by decide
theorem test_widen_little_endian_zero_fills :
    byteOf 0x400 (exec (.widen 0x100#32 1#32 0x400#32 1#32 1#32) (block .littleEndian piBytes)) =
      some 0x00#8 := by decide
theorem test_widen_misaligned_destination :
    statusOf (exec (.widen 0x100#32 2#32 0x202#32 2#32 2#32) (block .littleEndian [])) =
      some (0x06#8, 0x05#8) := by decide
theorem test_narrow1_truncates :
    resultOf (exec (.narrow1 0x7F7FFFFF#32) (block .bigEndian [])) = some 0x00007F7F#32 := by decide
theorem test_widen1 : resultOf (exec (.widen1 0x4049#16) (block .littleEndian [])) = some 0x40490000#32 := by decide
theorem test_fromint_rounds_up_first :
    resultOf (exec (.fromint 33554431#32) (block .littleEndian [])) = some 0x00004C00#32 := by decide
theorem test_fromint_negative :
    resultOf (exec (.fromint 0xFFFFFED4#32) (block .littleEndian [])) = some 0x0000C396#32 := by decide
theorem test_toint_toward_zero :
    resultOf (exec (.toint 0xC049#16) (block .littleEndian [])) = some 0xFFFFFFFD#32 := by decide
theorem test_toint_out_of_range :
    statusOf (exec (.toint 0x4F00#16) (block .littleEndian [])) = some (0x0B#8, 0x05#8) := by decide
theorem test_cenc_minus_100 :
    resultOf (exec (.cenc 0xFFFFFF9C#32) (block .uninit [])) = some 0x0000C2C8#32 := by decide
theorem test_cenc_most_negative :
    statusOf (exec (.cenc 0x80000000#32) (block .uninit [])) = some (0x09#8, 0x04#8) := by decide
theorem test_cdec_stray_bits : resultOf (exec (.cdec 0x40BF#16) (block .uninit [])) = some 5#32 := by decide
theorem test_cdec_exponent_135 :
    statusOf (exec (.cdec 0x4380#16) (block .uninit [])) = some (0x0A#8, 0x04#8) := by decide
theorem test_i2f_tie_to_odd_goes_up : i2f .nearestTiesToEven 25165827 = 0x4BC00002#32 := by decide
theorem test_narrow_copies_free_bytes :
    byteOf 0x10 (exec (.narrow 0#32 1#32 0x10#32 1#32 1#32) (block .littleEndian [])) =
      some (Config.unwrittenByte 2) := rfl
theorem test_operand_of_a_16_bit_int_w : sval 16 0x0000FFFB#32 = -5 := by decide
theorem test_assembler_line :
    asmLine "  CENC -5 ; minus five".toList =
      some (some (words 8#32 0xFFFFFFFB#32 0#32 0#32 0#32 0#32)) := by decide
theorem test_assembler_refuses_minus :
    asmLine "WIDEN1 -1".toList = none := by decide
theorem test_fetch_word_runs_first :
    statusOf (step (State.reset.withFetchWord 32 0x00000001)) = some (0x04#8, 0x04#8) := by decide

/-! ### Witnesses: concrete states and operands that meet the hypotheses of each statement -/

/-- DecodeAndEncodeAgree: a descriptor with ignored bits set that decodes to a command. -/
theorem witness_decoded_descriptor :
    decode (words 5#32 0xABCD4049#32 7#32 0#32 0#32 0#32) = .command (.widen1 0x4049#16) := by decide

/-- IllegalDescriptorsRaiseIllegalCommand: each of the three ways to be illegal, on an issued descriptor. -/
theorem witness_illegal_high_bits :
    ((block .uninit []).withInbox [.issue (words 0x100#32 0#32 0#32 0#32 0#32 0#32)]).inbox =
        .issue (words 0x100#32 0#32 0#32 0#32 0#32 0#32) :: [] ∧
      (0x100#32 : Word) >>> 8 ≠ 0#32 := by decide
theorem witness_illegal_zero :
    ((block .uninit []).withInbox [.issue (words 0#32 0#32 0#32 0#32 0#32 0#32)]).inbox =
        .issue (words 0#32 0#32 0#32 0#32 0#32 0#32) :: [] ∧
      (0#32 : Word) &&& 0xFF#32 = 0#32 := by decide
theorem witness_illegal_reserved :
    ((block .uninit []).withInbox [.issue (words 0x0A#32 0#32 0#32 0#32 0#32 0#32)]).inbox =
        .issue (words 0x0A#32 0#32 0#32 0#32 0#32 0#32) :: [] ∧
      0x0A#32 ≤ (0x0A#32 : Word) &&& 0xFF#32 := by decide

/-- IgnoredBitsHaveNoEffect: two different legal descriptors of one command. -/
theorem witness_ignored_bits :
    (words 9#32 0xFFFF40A0#32 1#32 0#32 0#32 0#32).legal = true ∧
      (words 9#32 0xFFFF40A0#32 1#32 0#32 0#32 0#32).withoutIgnored =
        (words 9#32 0x000040A0#32 0#32 0#32 0#32 2#32).withoutIgnored := by decide

/-- StepRunsTheDecodedCommand: an issued descriptor that decodes, and a table word that does. -/
theorem witness_step_runs :
    ((block .uninit []).withInbox [.issue (words 8#32 5#32 0#32 0#32 0#32 0#32)]).inbox =
        .issue (words 8#32 5#32 0#32 0#32 0#32 0#32) :: [] ∧
      decode (words 8#32 5#32 0#32 0#32 0#32 0#32) = .command (.cenc 5#32) ∧
      decodeTableWord 32 0x00000008 = some (.cenc 0#32) := by decide

/-- IdleBlockHoldsItsState. -/
theorem witness_idle : State.reset.inbox = [] := rfl

/-- HostStoreChangesOneByte: the last address that exists, and the first that does not. -/
theorem witness_store_last :
    ((block .uninit []).withInbox [.store 0xFFF#32 7#8]).inbox = .store 0xFFF#32 7#8 :: [] ∧
      (0xFFF#32 : Word).toNat < (block .uninit []).memBytes := by decide
theorem witness_store_beyond :
    ((block .uninit []).withInbox [.store 0x1000#32 7#8]).inbox = .store 0x1000#32 7#8 :: [] ∧
      (block .uninit []).memBytes ≤ (0x1000#32 : Word).toNat := by decide

/-- AssembledLinesDecodeToTheirCommand: a line that assembles; the bounds of the signed operands. -/
theorem witness_assembles : assemble .cdec [(false, 0x40A0)] = some (words 9#32 0x40A0#32 0#32 0#32 0#32 0#32) := by
  decide
theorem witness_signed_bounds : (2 ^ 31 : Nat) ≤ 2 ^ 31 ∧ (2 ^ 31 - 1 : Nat) < 2 ^ 31 := by decide

/-- LinesOfTextAssembleToTheirDescriptors: a line as 95_test_vectors.md writes it is a `lineText`. -/
theorem witness_line_text :
    lineText "NARROW".toList
        [(true, false, 0x100), (false, false, 3), (true, false, 0x200), (false, false, 4), (false, false, 3)] =
      "NARROW 0x100, 3, 0x200, 4, 3".toList ∧
    lineText "CENC".toList [(false, true, 5)] = "CENC -5".toList := by decide

/-- EveryStepKeepsTheStateInvariant: a state with the invariant, bytes in MEM and a step to take. -/
theorem witness_invariant : (block .uninit piBytes).Inv ∧
    ∃ t, step (block .uninit piBytes) = .next t := by
  refine ⟨⟨by decide, by decide, by decide, ?_, fun _ => ⟨rfl, rfl⟩⟩, _, rfl⟩
  intro r h
  cases h

/-- ModeIsSetOnceAndOnlyByInit: a step that changes MODE; a faulting command; a run with MODE set. -/
theorem witness_mode_changes :
    ∃ t, step ((block .uninit []).withInbox [.issue (words 1#32 1#32 0#32 0#32 0#32 0#32)]) = .next t ∧
      t.mode ≠ .uninit := ⟨_, rfl, by decide⟩
theorem witness_run_with_mode_set :
    ∃ t, Host.Core.run Sys2Proof.core 2
        ((block .bigEndian []).withInbox [.issue (words 1#32 1#32 0#32 0#32 0#32 0#32)]) = .next t ∧
      (block .bigEndian []).mode ≠ .uninit := ⟨_, rfl, by decide⟩

/-- FltIsStickyAndNeverRead, FaultingCommandChangesOnlyFlt, FaultLeavesLaterCommandsUnaffected: a command that
ends with a nonzero status, one that ends OK, a run from FLT = 1. -/
theorem witness_faulting_command :
    ∃ t r, perform (words 4#32 0#32 0#32 0#32 0#32 0#32) (block .uninit []) = .next t ∧
      t.response = some r ∧ r.status ≠ 0x00#8 := ⟨_, _, rfl, rfl, by decide⟩
theorem witness_ok_command :
    ∃ t r, perform (words 8#32 0#32 0#32 0#32 0#32 0#32) (block .uninit []) = .next t ∧
      t.response = some r ∧ r.status = 0x00#8 := ⟨_, _, rfl, rfl, by decide⟩
theorem witness_run_with_flt :
    ∃ t, Host.Core.run Sys2Proof.core 1
        ((block .uninit []).raise .illegalCommand) = .next t ∧
      ((block .uninit []).raise .illegalCommand).flt = true := ⟨_, rfl, rfl⟩

/-- StatusReportsModeAndFlt: a command and a store of the host that go on. -/
theorem witness_store_goes_on : ∃ t, hostStore 0#32 1#8 (block .littleEndian []) = .next t := ⟨_, rfl⟩

/-- FirstViolatedPreconditionIsReported: an illegal descriptor; the first and the last cause of a bulk
command; no cause. -/
theorem witness_not_a_command : ∀ i, decode (words 0#32 0#32 0#32 0#32 0#32 0#32) ≠ .command i := by
  intro i h
  cases h
theorem witness_first_of_several :
    firstFault (.narrow 0x101#32 1#32 0x200#32 1#32 5#32) (block .uninit []) = some .notInitialized := by decide
theorem witness_last_cause :
    firstFault (.narrow 0x100#32 2#32 0x104#32 2#32 2#32) (block .littleEndian []) =
      some .bufferOverlap := by decide
theorem witness_no_cause :
    firstFault (.narrow 0x100#32 2#32 0x108#32 2#32 2#32) (block .littleEndian []) = none := by decide

/-- InitSetsModeFromTheProbe, TruthfulProbeRecordsTheHostOrder, InitOutcomeDependsOnModeAndProbeOnly: MODE set and
unset, a probe that is neither image, two states with one MODE. -/
theorem witness_init_modes :
    (block .bigEndian []).mode ≠ .uninit ∧ (block .uninit []).mode = .uninit ∧
      (0x00010001#32 : Word) ≠ 0x00000001#32 ∧ (0x00010001#32 : Word) ≠ 0x00000100#32 ∧
      (block .uninit []).mode = (block .uninit piBytes).mode ∧ block .uninit [] ≠ block .uninit piBytes := by decide

/-- ConversionsAreGatedByInit: CENC and CDEC answer with MODE = Uninit. -/
theorem witness_codec_ungated :
    (∃ t r, exec (.cenc 5#32) (block .uninit []) = .next t ∧ t.response = some r) ∧
      ∃ t r, exec (.cdec 0x40A0#16) (block .uninit []) = .next t ∧ t.response = some r :=
  ⟨⟨_, _, rfl, rfl⟩, _, _, rfl, rfl⟩

/-- NarrowAndWidenLaws (e): the largest finite pattern is finite. -/
theorem witness_finite : f32Exp 0x7F7FFFFF#32 ≠ 255#8 := by decide

/-- BulkAdmissionMakesItsChecksInOrder: a command for each of its six ends, at the boundary of each check
(95_test_vectors.md V-ADM). -/
theorem witness_admission_uninit :
    statusOf (exec (.narrow 0x100#32 2#32 0x200#32 2#32 2#32) (block .uninit [])) = some (0x02#8, 0x04#8) := by decide
theorem witness_admission_count :
    statusOf (exec (.narrow 0x100#32 2#32 0x200#32 2#32 3#32) (block .littleEndian [])) =
      some (0x05#8, 0x05#8) := by decide
theorem witness_admission_aligned :
    statusOf (exec (.narrow 0x102#32 2#32 0x200#32 2#32 2#32) (block .littleEndian [])) =
      some (0x06#8, 0x05#8) := by decide
theorem witness_admission_range :
    statusOf (exec (.narrow 0xFFFFFFFC#32 2#32 0x200#32 2#32 1#32) (block .littleEndian [])) =
      some (0x07#8, 0x05#8) := by decide
theorem witness_admission_overlap :
    statusOf (exec (.widen 0x100#32 4#32 0x100#32 2#32 1#32) (block .littleEndian [])) =
      some (0x08#8, 0x05#8) := by decide
theorem witness_admission_passed :
    statusOf (exec (.narrow 0x100#32 2#32 0x100#32 2#32 0#32) (block .littleEndian [])) =
      some (0x00#8, 0x01#8) := by decide

/-- NarrowCopiesTheSelectedHalves: the source ends at MEM_BYTES, and the destination ends where it starts. -/
theorem witness_narrow_admitted :
    (block .bigEndian []).mode = Mode.ofOrder .bigEndian ∧
      (2#32 : Word).toNat ≤ (2#32 : Word).toNat ∧
      (0xFF8#32 : Word).toNat % 4 = 0 ∧ (0xFF4#32 : Word).toNat % 2 = 0 ∧
      (0xFF8#32 : Word).toNat + 4 * (2#32 : Word).toNat ≤ (block .bigEndian []).memBytes ∧
      (0xFF4#32 : Word).toNat + 2 * (2#32 : Word).toNat ≤ (block .bigEndian []).memBytes ∧
      (0xFF4#32 : Word).toNat + 2 * (2#32 : Word).toNat ≤ (0xFF8#32 : Word).toNat := by decide

/-- WidenPlacesTheHalvesAndZeroFills: the destination ends at MEM_BYTES and starts where the source ends. -/
theorem witness_widen_admitted :
    (block .littleEndian []).mode = Mode.ofOrder .littleEndian ∧
      (2#32 : Word).toNat ≤ (2#32 : Word).toNat ∧
      (0xFF4#32 : Word).toNat % 2 = 0 ∧ (0xFF8#32 : Word).toNat % 4 = 0 ∧
      (0xFF4#32 : Word).toNat + 2 * (2#32 : Word).toNat ≤ (block .littleEndian []).memBytes ∧
      (0xFF8#32 : Word).toNat + 4 * (2#32 : Word).toNat ≤ (block .littleEndian []).memBytes ∧
      (0xFF4#32 : Word).toNat + 2 * (2#32 : Word).toNat ≤ (0xFF8#32 : Word).toNat := by decide

/-- OnlyBulkCommandsWriteMemory: a command of each kind that changes a byte. -/
theorem witness_bulk_writes :
    (∃ t, exec (.narrow 0x100#32 1#32 0xFC#32 2#32 1#32) ((block .littleEndian ((0xFC, 0#8) :: piBytes))) = .next t ∧
      t.mem.readByte 0xFC ≠ (block .littleEndian ((0xFC, 0#8) :: piBytes)).mem.readByte 0xFC) ∧
    ∃ t, exec (.widen 0x102#32 1#32 0xF8#32 1#32 1#32) ((block .littleEndian ((0xFA, 0#8) :: piBytes))) = .next t ∧
      t.mem.readByte 0xFA ≠ (block .littleEndian ((0xFA, 0#8) :: piBytes)).mem.readByte 0xFA :=
  ⟨⟨_, rfl, by decide⟩, _, rfl, by decide⟩

/-- BulkAgreesWithScalarWhenModeIsHostOrder, RepeatedBulkCommandIsIdempotent: a NARROW and a
WIDEN of one element that succeed, MODE known, and the other order. -/
theorem witness_bulk_runs :
    (block .littleEndian piBytes).agreesWith .littleEndian ∧ 0 < (1#32 : Word).toNat ∧
    (∃ t, exec (.narrow 0x100#32 1#32 0x200#32 1#32 1#32) (block .littleEndian piBytes) = .next t ∧
      WroteOnlyMemory (block .littleEndian piBytes) t) ∧
    ∃ t, exec (.widen 0x100#32 1#32 0x200#32 1#32 1#32) (block .littleEndian piBytes) = .next t ∧
      WroteOnlyMemory (block .littleEndian piBytes) t :=
  ⟨rfl, by decide, ⟨_, rfl, rfl⟩, _, rfl, rfl⟩

/-- WrongModeSelectsTheLowHalf: MODE against the order of the data, and a NARROW and a WIDEN without a violated
precondition. -/
theorem witness_wrong_mode :
    (block .bigEndian piBytes).agreesWith .bigEndian ∧ ByteOrder.littleEndian ≠ ByteOrder.bigEndian ∧
      firstFault (.narrow 0x100#32 1#32 0x200#32 2#32 1#32) (block .bigEndian piBytes) = none ∧
      firstFault (.widen 0x100#32 1#32 0x200#32 2#32 1#32) (block .bigEndian piBytes) = none ∧
      0 < (1#32 : Word).toNat := ⟨rfl, by decide, by decide, by decide, by decide⟩

/-- BulkRoundTripClearsTheLowHalves: one element from 0x100 to 0x200, to 0x300, to 0x400, in buffers of several
lengths. Its second clause starts at `t`. -/
theorem witness_round_trip :
    ∃ t u v, (block .littleEndian piBytes).mode = Mode.ofOrder .littleEndian ∧ t.mode = Mode.ofOrder .littleEndian ∧
      exec (.narrow 0x100#32 1#32 0x200#32 3#32 1#32) (block .littleEndian piBytes) = .next t ∧
      WroteOnlyMemory (block .littleEndian piBytes) t ∧
      exec (.widen 0x200#32 2#32 0x300#32 4#32 1#32) t = .next u ∧ WroteOnlyMemory t u ∧
      exec (.narrow 0x300#32 5#32 0x400#32 1#32 1#32) u = .next v ∧ WroteOnlyMemory u v :=
  ⟨_, _, _, rfl, rfl, rfl, rfl, rfl, rfl, rfl, rfl⟩

/-- IntegerToFloatIsTheNearestFloat: both ends of the range, a finite pattern, and 25 bits with 24 significant. -/
theorem witness_integers :
    (-2 ^ 31 : Int) ≤ -2 ^ 31 ∧ (2 ^ 31 - 1 : Int) ≤ 2 ^ 31 - 1 ∧ f32Exp 0x4B800000#32 ≠ 255#8 ∧
      (33554430 : Int).natAbs = 16777215 * 2 ^ 1 ∧ 16777215 < 2 ^ 24 := by decide

/-- IntegerToFloatIsTheNearestFloat, the tie: 2^24 + 1 lies midway between the patterns of 2^24 and 2^24 + 2. -/
theorem witness_tie :
    f32Exp 0x4B800001#32 ≠ 255#8 ∧
      f32Value 0x4B800001#32 ≠ f32Value (i2f .nearestTiesToEven 16777217) ∧
      (f32Value (i2f .nearestTiesToEven 16777217) - 16777217 * 2 ^ 149).natAbs =
        (f32Value 0x4B800001#32 - 16777217 * 2 ^ 149).natAbs := by decide

/-- FromintAnswersTheTruncatedFloat, FromintAgreesWithCenc, TointTruncatesTowardZero, IntegerSurvivesFromintThenToint and
the codec's statements: legal parameters, MODE set and unset, magnitudes at the bounds. -/
theorem witness_integer_commands :
    (block .littleEndian []).params.wellFormed = true ∧ (block .littleEndian []).mode ≠ .uninit ∧
      (block .uninit []).mode = .uninit ∧
      (sval 32 0xFFFFFF01#32).natAbs ≤ 255 ∧ (sval 32 0x80000000#32).natAbs = 1 * 2 ^ 31 ∧ 1 ≤ 255 ∧
      1 ≤ (halfExp 0x0080#16).toNat ∧ (halfExp 0x7F7F#16).toNat ≤ 254 := by decide

/-- HalfSurvivesTointThenFromintIffInteger: TOINT of the most negative value accepted answers. -/
theorem witness_toint_answers :
    (block .littleEndian []).params.wellFormed = true ∧ (block .littleEndian []).mode ≠ .uninit ∧
    ∃ t, exec (.toint 0xCF00#16) (block .littleEndian []) = .next t ∧
      AnsweredWith 0x80000000#32 (block .littleEndian []) t := ⟨by decide, by decide, _, rfl, rfl⟩

/-- CencPacksSignExponentAndMantissa: an operand for each of its three cases, at the bounds. -/
theorem witness_cenc_cases :
    sval 32 0#32 = 0 ∧ (sval 32 256#32).natAbs > 255 ∧
      1 ≤ (sval 32 0xFFFFFFFF#32).natAbs ∧ (sval 32 255#32).natAbs ≤ 255 := by decide

/-- CdecUnpacksTheMagnitude: a pattern for each of its three cases, at the bounds 126, 127, 134 and 135. -/
theorem witness_cdec_cases :
    (0x3F00#16 : Half) ≠ 0x0000#16 ∧ (halfExp 0x3F00#16).toNat < 127 ∧ 134 < (halfExp 0x4380#16).toNat ∧
      (halfExp 0x3F80#16).toNat = 0 + 127 ∧ (halfExp 0x437F#16).toNat = 7 + 127 := by decide

/-- CencAndCdecAreMutualInverses: runs that answer, two operands of opposite sign, a canonical pattern. -/
theorem witness_codec_runs :
    (block .uninit []).params.wellFormed = true ∧
    (∃ t, exec (.cenc 5#32) (block .uninit []) = .next t ∧
      AnsweredWith (zext 0x40A0#16) (block .uninit []) t) ∧
    (∃ t, exec (.cdec 0xC0A0#16) (block .uninit []) = .next t ∧
      AnsweredWith 0xFFFFFFFB#32 (block .uninit []) t) ∧
    sval 32 5#32 ≠ 0 ∧ sval 32 0xFFFFFFFB#32 = -sval 32 5#32 ∧ canonical 0x40A0#16 = true :=
  ⟨by decide, ⟨_, rfl, rfl⟩, ⟨_, rfl, rfl⟩, by decide, by decide, by decide⟩

/-- CodecIgnoresModeAndMemory: two different states with the same parameters. -/
theorem witness_codec_states :
    (block .uninit []).params = (block .bigEndian piBytes).params ∧
      block .uninit [] ≠ block .bigEndian piBytes := by decide

end Sys2Proof.Tests
end

section
/-! The byte images of spec/00_scope.md rule R8: an image has the value `v` exactly when its bytes are the
slices of `v` that `img16` and `img32` list (O6). -/

namespace Sys2Proof.Machine

/-- A concatenation is `v` exactly when its two parts are the upper and the lower slice of `v`. -/
theorem append_eq_iff_slices {m n : Nat} (hi : BitVec m) (lo : BitVec n) (v : BitVec (m + n)) :
    hi ++ lo = v ↔ lo = v.extractLsb' 0 n ∧ hi = v.extractLsb' n m := by
  constructor
  · rintro rfl
    exact ⟨BitVec.extractLsb'_append_eq_right.symm, BitVec.extractLsb'_append_eq_left.symm⟩
  · rintro ⟨rfl, rfl⟩
    exact BitVec.extractLsb'_append_extractLsb'

/-- A slice inside a slice is a slice of the whole. -/
theorem extractLsb'_extractLsb' {w : Nat} (v : BitVec w) (a b m n : Nat) (h : b + n ≤ m) :
    (v.extractLsb' a m).extractLsb' b n = v.extractLsb' (a + b) n := by
  ext i hi
  have inside : b + i < m := by omega
  simp [BitVec.getElem_extractLsb', inside, Nat.add_assoc]

/-- Four bytes, the most significant first, make up `v` exactly when each is its slice of `v`. -/
theorem append_bytes_eq_iff (v : Word) (b3 b2 b1 b0 : Byte) :
    b3 ++ b2 ++ b1 ++ b0 = v ↔
      b0 = v.extractLsb' 0 8 ∧ b1 = v.extractLsb' 8 8 ∧ b2 = v.extractLsb' 16 8 ∧
        b3 = v.extractLsb' 24 8 := by
  rw [append_eq_iff_slices, append_eq_iff_slices, append_eq_iff_slices]
  simp [extractLsb'_extractLsb']

/-- R8: `img_16(order, v)` is the one image whose value is `v`. -/
theorem img16_unique (o : ByteOrder) (v : Half) :
    ∃ b0 b1, img16 o v = [b0, b1] ∧ ∀ c0 c1, val16 o c0 c1 = v ↔ c0 = b0 ∧ c1 = b1 := by
  cases o with
  | littleEndian => exact ⟨_, _, rfl, fun c0 c1 => append_eq_iff_slices c1 c0 v⟩
  | bigEndian => exact ⟨_, _, rfl, fun c0 c1 => (append_eq_iff_slices c0 c1 v).trans and_comm⟩

/-- R8: `img_32(order, v)` is the one image whose value is `v`. -/
theorem img32_unique (o : ByteOrder) (v : Word) :
    ∃ b0 b1 b2 b3, img32 o v = [b0, b1, b2, b3] ∧
      ∀ c0 c1 c2 c3, val32 o c0 c1 c2 c3 = v ↔ c0 = b0 ∧ c1 = b1 ∧ c2 = b2 ∧ c3 = b3 := by
  cases o with
  | littleEndian =>
    exact ⟨_, _, _, _, rfl, fun c0 c1 c2 c3 => append_bytes_eq_iff v c3 c2 c1 c0⟩
  | bigEndian =>
    refine ⟨_, _, _, _, rfl, fun c0 c1 c2 c3 => (append_bytes_eq_iff v c0 c1 c2 c3).trans ?_⟩
    constructor
    · rintro ⟨h3, h2, h1, h0⟩
      exact ⟨h0, h1, h2, h3⟩
    · rintro ⟨h0, h1, h2, h3⟩
      exact ⟨h3, h2, h1, h0⟩

/-- Settles O6: the two orders are those R8 writes out, and each image is the unique one with its value. -/
theorem byteImagesAreUniqueInverses : Obligations.ByteImagesAreUniqueInverses :=
  ⟨fun _ _ => ⟨rfl, rfl⟩, fun _ _ _ _ => ⟨rfl, rfl⟩, img16_unique, img32_unique⟩

end Sys2Proof.Machine
end

section
/-! What `narrow` keeps of a Float32 pattern, field by field and class by class (spec/41_float_truncator.md
rules R111 to R113, classes of spec/00_scope.md rule R11; O27). -/

namespace Sys2Proof.Machine

/-! ### The fields through `narrow` and `widen` -/

@[simp] theorem halfSign_narrow (f : Word) : halfSign (narrow f) = f32Sign f := by
  simp [halfSign, narrow, f32Sign]

@[simp] theorem halfExp_narrow (f : Word) : halfExp (narrow f) = f32Exp f :=
  extractLsb'_extractLsb' f 16 7 16 8 (by decide)

/-- The seven kept mantissa bits. -/
@[simp] theorem halfFrac_narrow (f : Word) : halfFrac (narrow f) = (f32Frac f).extractLsb' 16 7 :=
  (extractLsb'_extractLsb' f 16 0 16 7 (by decide)).trans
    (extractLsb'_extractLsb' f 0 16 23 7 (by decide)).symm

/-- A slice of `widen h` above the appended zeros is the slice of `h` sixteen bits lower. -/
theorem extractLsb'_widen (h : Half) (a n : Nat) :
    (widen h).extractLsb' (a + 16) n = h.extractLsb' a n :=
  BitVec.extractLsb'_append_eq_of_le (Nat.le_add_left 16 a)

@[simp] theorem f32Exp_widen (h : Half) : f32Exp (widen h) = halfExp h :=
  extractLsb'_widen h 7 8

@[simp] theorem f32Frac_widen (h : Half) : f32Frac (widen h) = halfFrac h ++ 0#16 := by
  symm
  rw [append_eq_iff_slices, f32Frac, extractLsb'_extractLsb' _ 0 0 23 16 (by decide),
    extractLsb'_extractLsb' _ 0 16 23 7 (by decide)]
  exact ⟨BitVec.extractLsb'_append_eq_right.symm, (extractLsb'_widen h 0 7).symm⟩

/-- The zeros `widen` appends do not decide whether a mantissa is zero. -/
theorem f32Frac_widen_eq_zero (h : Half) : f32Frac (widen h) = 0#23 ↔ halfFrac h = 0#7 := by
  rw [f32Frac_widen]
  exact BitVec.append_left_inj (s₂ := 0#7) 0#16

/-! ### The classes, one equation per range of the exponent (R11) -/

theorem f32Class_of_exp_zero (f : Word) (he : f32Exp f = 0#8) :
    f32Class f = if f32Frac f = 0#23 then .zero else .subnormal := by
  simp [f32Class, he]

theorem f32Class_of_exp_max (f : Word) (he : f32Exp f = 255#8) :
    f32Class f = if f32Frac f = 0#23 then .infinity else .nan := by
  simp [f32Class, he]

theorem f32Class_of_exp_between (f : Word) (h0 : f32Exp f ≠ 0#8) (h255 : f32Exp f ≠ 255#8) :
    f32Class f = .normal := by
  simp [f32Class, h0, h255]

/-- R112, exponent 0: what is left is zero or subnormal, as the seven kept mantissa bits say. -/
theorem f32Class_widen_narrow_of_exp_zero (f : Word) (he : f32Exp f = 0#8) :
    f32Class (widen (narrow f)) =
      if (f32Frac f).extractLsb' 16 7 = 0#7 then .zero else .subnormal := by
  rw [f32Class_of_exp_zero _ (by simpa using he)]
  simp only [f32Frac_widen_eq_zero, halfFrac_narrow]

/-- R112, exponent 255: what is left is an infinity or a NaN, as the seven kept mantissa bits say. -/
theorem f32Class_widen_narrow_of_exp_max (f : Word) (he : f32Exp f = 255#8) :
    f32Class (widen (narrow f)) =
      if (f32Frac f).extractLsb' 16 7 = 0#7 then .infinity else .nan := by
  rw [f32Class_of_exp_max _ (by simpa using he)]
  simp only [f32Frac_widen_eq_zero, halfFrac_narrow]

/-- R112, every other exponent: a normal pattern stays normal. -/
theorem f32Class_widen_narrow_of_exp_between (f : Word) (h0 : f32Exp f ≠ 0#8)
    (h255 : f32Exp f ≠ 255#8) : f32Class (widen (narrow f)) = .normal :=
  f32Class_of_exp_between _ (by simpa using h0) (by simpa using h255)

/-- Settles O27: the fields are slices of slices; for the class, the exponent is kept and the mantissa matters
only at the exponents 0 and 255. A zero mantissa has zero kept bits; a nonzero one may lose them all. -/
theorem narrowKeepsFieldsAndMostClasses : Obligations.NarrowKeepsFieldsAndMostClasses := by
  intro f
  refine ⟨halfSign_narrow f, halfExp_narrow f, halfFrac_narrow f, ?_⟩
  by_cases h0 : f32Exp f = 0#8
  · rw [f32Class_widen_narrow_of_exp_zero f h0, f32Class_of_exp_zero f h0]
    by_cases hm : f32Frac f = 0#23
    · simp [hm]
    · simp [hm]
  · by_cases h255 : f32Exp f = 255#8
    · rw [f32Class_widen_narrow_of_exp_max f h255, f32Class_of_exp_max f h255]
      by_cases hm : f32Frac f = 0#23
      · simp [hm]
      · simp [hm]
    · rw [f32Class_widen_narrow_of_exp_between f h0 h255, f32Class_of_exp_between f h0 h255]

end Sys2Proof.Machine
end

section
/-! What performing a descriptor and taking a step can do, said once each: `CommandEnd` and `StepEnd` list the
ends (spec/30_encoding.md rules R70, R76; spec/10_state.md rule R30). The statements about the state of the
block (O8, O12 to O17, O33) are read off them. -/

namespace Sys2Proof.Machine

/-! ### The host's store -/

theorem hostStore_inside (s : State) (a : Word) (b : Byte) (h : a.toNat < s.memBytes) :
    hostStore a b s = .next (s.withMem (s.mem.write a.toNat b)) := if_pos h

theorem hostStore_beyond (s : State) (a : Word) (b : Byte) (h : s.memBytes ≤ a.toNat) :
    hostStore a b s = .fault (.noSuchAddress a) := if_neg (Nat.not_lt.mpr h)

/-- A store of the host that goes on named an address that exists (R50). -/
theorem hostStore_eq_next (s t : State) (a : Word) (b : Byte) (h : hostStore a b s = .next t) :
    a.toNat < s.memBytes ∧ t = s.withMem (s.mem.write a.toNat b) := by
  rcases Nat.lt_or_ge a.toNat s.memBytes with ha | ha
  · rw [hostStore_inside s a b ha] at h
    injection h with h
    exact ⟨ha, h.symm⟩
  · rw [hostStore_beyond s a b ha] at h
    cases h

/-! ### One step -/

theorem step_of_nil (s : State) (h : s.inbox = []) : step s = .next s := by simp [step, h]

theorem step_of_issue (s : State) (d : Descriptor) (rest : List HostMove) (h : s.inbox = .issue d :: rest) :
    step s = perform d (s.withInbox rest) := by simp [step, h]

theorem step_of_store (s : State) (a : Word) (b : Byte) (rest : List HostMove)
    (h : s.inbox = .store a b :: rest) : step s = hostStore a b (s.withInbox rest) := by simp [step, h]

/-- The ends of a step that goes on: nothing to do (R235), a command (R70), a store of the host (R30). -/
inductive StepEnd (s : State) : State → Prop
  | idle (empty : s.inbox = []) : StepEnd s s
  | command {t : State} (d : Descriptor) (rest : List HostMove) (next : s.inbox = .issue d :: rest)
      (performed : perform d (s.withInbox rest) = .next t) : StepEnd s t
  | stored (a : Word) (b : Byte) (rest : List HostMove) (next : s.inbox = .store a b :: rest)
      (inside : a.toNat < s.memBytes) :
      StepEnd s ((s.withInbox rest).withMem (s.mem.write a.toNat b))

/-- Every step that goes on has one of the ends of `StepEnd`. -/
theorem stepEnd_of_step (s t : State) (h : step s = .next t) : StepEnd s t := by
  cases hi : s.inbox with
  | nil =>
    rw [step_of_nil s hi] at h
    injection h with h
    exact h ▸ .idle hi
  | cons move rest =>
    cases move with
    | issue d => exact .command d rest hi (step_of_issue s d rest hi ▸ h)
    | store a b =>
      rw [step_of_store s a b rest hi] at h
      obtain ⟨inside, rfl⟩ := hostStore_eq_next _ t a b h
      exact .stored a b rest hi inside

/-! ### One command -/

/-- R51: the destination elements of an admitted bulk command exist. -/
theorem State.admission_destination_inside (s : State) (ss ds src srcLen dst dstLen count : Nat)
    (h : s.admission ss ds src srcLen dst dstLen count = none) : dst + ds * count ≤ s.memBytes := by
  obtain ⟨⟨_, fits⟩, _, ⟨_, inside⟩, _⟩ := (s.admission_eq_none ..).mp h
  have := Nat.mul_le_mul_left ds fits
  omega

/-- The ends of a command: a fault; an answer; a successful INIT (R100); an admitted bulk command (R110, R114),
which keeps MEM canonical and lists no new address outside the address map. -/
inductive CommandEnd (d : Descriptor) (s : State) : State → Prop
  | raised (c : Cause) : CommandEnd d s (s.raise c)
  | answered (v : Word) : CommandEnd d s (s.finish v)
  | initialized (o : ByteOrder) (isInit : decode d = .command (.init (hostProbe o)))
      (fresh : s.mode = .uninit) : CommandEnd d s ((s.withMode (Mode.ofOrder o)).finish 0#32)
  | converted (m : Memory) (keepsWf : s.mem.wf → m.wf)
      (inside : ∀ c ∈ m, c ∈ s.mem ∨ c.1 < s.memBytes) : CommandEnd d s ((s.withMem m).finish 0#32)

/-- Every performed descriptor has one of the ends of `CommandEnd`. -/
theorem commandEnd_of_perform (d : Descriptor) (s t : State) (h : perform d s = .next t) :
    CommandEnd d s t := by
  unfold perform at h
  split at h
  next i hd =>
    rcases exec_cases i s with ⟨c, he⟩ | ⟨v, he⟩ | ⟨probe, o, rfl, fresh, rfl, he⟩ |
      ⟨src, srcLen, dst, dstLen, count, o, rfl, _, admitted, he⟩ |
      ⟨src, srcLen, dst, dstLen, count, o, rfl, _, admitted, he⟩ <;>
      (rw [he] at h; injection h with h; subst h)
    · exact .raised c
    · exact .answered v
    · exact .initialized o hd fresh
    · have hdst := s.admission_destination_inside _ _ _ _ _ _ _ admitted
      exact .converted _ (narrowElements_wf _ _ _ _ _) fun c hc =>
        (narrowElements_mem _ _ _ _ _ c hc).imp id fun hc => Nat.lt_of_lt_of_le hc.2 hdst
    · have hdst := s.admission_destination_inside _ _ _ _ _ _ _ admitted
      exact .converted _ (widenElements_wf _ _ _ _ _) fun c hc =>
        (widenElements_mem _ _ _ _ _ c hc).imp id fun hc => Nat.lt_of_lt_of_le hc.2 hdst
  next =>
    injection h with h
    exact h ▸ .raised .illegalCommand

/-- What the response of a command that took `s` to `t` tells about the two states (R22, R23, R72). -/
structure Response.Reports (r : Response) (s t : State) : Prop where
  statCurrent : r.stat = t.stat
  statusInTable : r.status.toNat ≤ 0x0B
  faultSetsFlt : r.status ≠ 0x00#8 → t.flt = true
  faultKeepsMode : r.status ≠ 0x00#8 → t.mode = s.mode
  okKeepsFlt : r.status = 0x00#8 → t.flt = s.flt

theorem State.raise_reports (s : State) (c : Cause) :
    ∃ r, (s.raise c).response = some r ∧ r.Reports s (s.raise c) :=
  ⟨_, rfl, rfl, c.code_range.2, fun _ => rfl, fun _ => rfl, fun ok => absurd ok c.code_ne_ok⟩

theorem State.finish_reports (s u : State) (v : Word) (keepsFlt : u.flt = s.flt) :
    ∃ r, (u.finish v).response = some r ∧ r.Reports s (u.finish v) :=
  ⟨_, rfl, rfl, Nat.zero_le _, fun fault => absurd rfl fault, fun fault => absurd rfl fault, fun _ => keepsFlt⟩

theorem CommandEnd.reports {d : Descriptor} {s t : State} (h : CommandEnd d s t) :
    ∃ r, t.response = some r ∧ r.Reports s t := by
  cases h with
  | raised c => exact s.raise_reports c
  | answered v => exact s.finish_reports s v rfl
  | initialized o => exact s.finish_reports _ _ rfl
  | converted m => exact s.finish_reports _ _ rfl

/-- `Response.Reports` of the response at hand. -/
theorem reports_of_perform (d : Descriptor) (s t : State) (r : Response) (h : perform d s = .next t)
    (hr : t.response = some r) : r.Reports s t := by
  obtain ⟨q, hq, reports⟩ := (commandEnd_of_perform d s t h).reports
  rw [hr] at hq
  injection hq with hq
  exact hq ▸ reports

/-- Settles O8, by the two equations of `hostStore` and the laws of a write. -/
theorem hostStoreChangesOneByte : Obligations.HostStoreChangesOneByte := by
  intro s a b rest next
  rw [step_of_store s a b rest next]
  refine ⟨fun inside => ⟨_, hostStore_inside _ a b inside, rfl, ?_, ?_⟩,
    hostStore_beyond (s.withInbox rest) a b⟩
  · exact Memory.readByte_write_same s.mem a.toNat b
  · exact Memory.readByte_write_other s.mem a.toNat b

/-- Settles O12: the fields of the reset state; nothing is listed in its MEM. -/
theorem resetLeavesModeUninit : Obligations.ResetLeavesModeUninit :=
  ⟨rfl, rfl, rfl, rfl, fun _ => rfl⟩

/-! ### The invariant of the state -/

/-- Settles O13: MEM is empty and no response has been given. -/
theorem resetSatisfiesTheStateInvariant : Obligations.ResetSatisfiesTheStateInvariant where
  memWf := .nil
  memInside := fun _ hc => absurd hc List.not_mem_nil
  paramsLegal := rfl
  responseTrue := fun _ hr => nomatch hr
  silentStart := fun _ => ⟨rfl, rfl⟩

/-- Taking moves off the host's stream keeps the invariant, which does not speak of it. -/
theorem State.Inv.withInbox {s : State} (h : s.Inv) (rest : List HostMove) : (s.withInbox rest).Inv :=
  ⟨h.memWf, h.memInside, h.paramsLegal, h.responseTrue, h.silentStart⟩

/-- A write at an address that exists keeps the invariant. -/
theorem State.Inv.write {s : State} (h : s.Inv) (a : Nat) (b : Byte) (inside : a < s.memBytes) :
    (s.withMem (s.mem.write a b)).Inv where
  memWf := Memory.write_wf s.mem a b h.memWf
  memInside := fun c hc => by
    rcases Memory.mem_write s.mem a b c hc with rfl | hc
    · exact inside
    · exact h.memInside c hc
  paramsLegal := h.paramsLegal
  responseTrue := h.responseTrue
  silentStart := h.silentStart

theorem CommandEnd.params_eq {d : Descriptor} {s t : State} (h : CommandEnd d s t) : t.params = s.params := by
  cases h <;> rfl

theorem CommandEnd.mem_wf {d : Descriptor} {s t : State} (h : CommandEnd d s t) (hs : s.mem.wf) : t.mem.wf := by
  cases h with
  | converted m keepsWf => exact keepsWf hs
  | _ => exact hs

theorem CommandEnd.mem_inside {d : Descriptor} {s t : State} (h : CommandEnd d s t)
    (hs : ∀ c ∈ s.mem, c.1 < s.memBytes) : ∀ c ∈ t.mem, c.1 < t.memBytes := by
  cases h with
  | converted m _ inside => exact fun c hc => (inside c hc).elim (hs c) id
  | _ => exact hs

theorem CommandEnd.inv {d : Descriptor} {s t : State} (h : CommandEnd d s t) (hs : s.Inv) : t.Inv := by
  obtain ⟨r, hr, reports⟩ := h.reports
  refine ⟨h.mem_wf hs.memWf, h.mem_inside hs.memInside, h.params_eq ▸ hs.paramsLegal,
    fun q hq => ?_, fun silent => ?_⟩
  · rw [hr] at hq
    injection hq with hq
    exact hq ▸ ⟨reports.statCurrent, reports.statusInTable, reports.faultSetsFlt⟩
  · rw [hr] at silent
    cases silent

/-- Settles O14, by the end of the step. -/
theorem everyStepKeepsTheStateInvariant : Obligations.EveryStepKeepsTheStateInvariant := by
  intro s t hs h
  cases stepEnd_of_step s t h with
  | idle => exact hs
  | command d rest _ performed => exact (commandEnd_of_perform d _ t performed).inv (hs.withInbox rest)
  | stored a b rest _ inside => exact (hs.withInbox rest).write a.toNat b inside

/-! ### MODE (R21) -/

/-- A command changes MODE only as a successful INIT does. -/
theorem CommandEnd.mode_eq_or_initialized {d : Descriptor} {s t : State} (h : CommandEnd d s t) :
    t.mode = s.mode ∨ ∃ o, s.mode = .uninit ∧ decode d = .command (.init (hostProbe o)) ∧
      t = (s.withMode (Mode.ofOrder o)).finish 0#32 := by
  cases h with
  | initialized o isInit fresh => exact .inr ⟨o, fresh, isInit, rfl⟩
  | _ => exact .inl rfl

/-- A step changes MODE only as a successful INIT does. -/
theorem StepEnd.mode_eq_or_initialized {s t : State} (h : StepEnd s t) :
    t.mode = s.mode ∨ ∃ d rest o, s.inbox = .issue d :: rest ∧ s.mode = .uninit ∧
      decode d = .command (.init (hostProbe o)) ∧
      t = ((s.withInbox rest).withMode (Mode.ofOrder o)).finish 0#32 := by
  cases h with
  | idle => exact .inl rfl
  | command d rest next performed =>
    rcases (commandEnd_of_perform d _ t performed).mode_eq_or_initialized with same | ⟨o, fresh, isInit, ht⟩
    · exact .inl same
    · exact .inr ⟨d, rest, o, next, fresh, isInit, ht⟩
  | stored => exact .inl rfl

/-- The probe a truthful host of either order presents, written out, and the MODE that records the order. -/
theorem hostProbe_ofOrder (o : ByteOrder) :
    (hostProbe o = 0x00000001#32 ∧ Mode.ofOrder o = .littleEndian) ∨
      (hostProbe o = 0x00000100#32 ∧ Mode.ofOrder o = .bigEndian) := by
  cases o with
  | littleEndian => exact .inl ⟨by decide, rfl⟩
  | bigEndian => exact .inr ⟨by decide, rfl⟩

/-- A step keeps a MODE that is set. -/
theorem step_keeps_mode (s t : State) (h : step s = .next t) (set : s.mode ≠ .uninit) : t.mode = s.mode := by
  rcases (stepEnd_of_step s t h).mode_eq_or_initialized with same | ⟨_, _, _, _, fresh, _⟩
  · exact same
  · exact absurd fresh set

/-- Settles O15: only the end `initialized` changes MODE; the run law is `step_keeps_mode` along the run. -/
theorem modeIsSetOnceAndOnlyByInit : Obligations.ModeIsSetOnceAndOnlyByInit := by
  refine ⟨fun s t h changed => ?_, fun d s t r h hr fault => ?_, fun n s t h set => ?_, rfl⟩
  · rcases (stepEnd_of_step s t h).mode_eq_or_initialized with same | ⟨d, rest, o, next, fresh, isInit, rfl⟩
    · exact absurd same changed
    · exact ⟨fresh, d, rest, hostProbe o, next, isInit, hostProbe_ofOrder o, _, rfl, rfl⟩
  · exact (reports_of_perform d s t r h hr).faultKeepsMode fault
  · refine run_keeps (fun u => u.mode = s.mode) (fun u w hu hw => ?_) n s t rfl h
    exact (step_keeps_mode u w hw (hu ▸ set)).trans hu

/-! ### FLT (R22) -/

/-- A step keeps a set FLT. -/
theorem step_keeps_flt (s t : State) (set : s.flt = true) (h : step s = .next t) : t.flt = true := by
  cases stepEnd_of_step s t h with
  | idle => exact set
  | command d rest _ performed =>
    obtain ⟨r, _, reports⟩ := (commandEnd_of_perform d _ t performed).reports
    by_cases ok : r.status = 0x00#8
    · exact (reports.okKeepsFlt ok).trans set
    · exact reports.faultSetsFlt ok
  | stored => exact set

/-- `FLT <- b`. -/
def State.withFlt (s : State) (b : Bool) : State := { s with flt := b }

@[simp] theorem State.withFlt_mode (s : State) (b : Bool) : (s.withFlt b).mode = s.mode := rfl
@[simp] theorem State.withFlt_mem (s : State) (b : Bool) : (s.withFlt b).mem = s.mem := rfl
@[simp] theorem State.withFlt_params (s : State) (b : Bool) : (s.withFlt b).params = s.params := rfl
@[simp] theorem State.withFlt_admission (s : State) (b : Bool) : (s.withFlt b).admission = s.admission := rfl

/-- `t` and `u` have a response each and agree in MODE, MEM, the status and, beside an OK, the result. -/
def SameAnswer (t u : State) : Prop :=
  ∃ r q, t.response = some r ∧ u.response = some q ∧ u.mode = t.mode ∧ u.mem = t.mem ∧
    q.status = r.status ∧ (r.status = 0x00#8 → q.result = r.result)

/-- Two commands that go on to states of the same answer. -/
def SameEnd (x y : Host.Outcome State Fault Refusal) : Prop :=
  ∃ t u, x = .next t ∧ y = .next u ∧ SameAnswer t u

theorem SameAnswer.next {t u : State} (h : SameAnswer t u) : SameEnd (.next t) (.next u) :=
  ⟨t, u, rfl, rfl, h⟩

theorem SameAnswer.ite {t u t' u' : State} (p : Prop) [Decidable p] (h : SameAnswer t u)
    (h' : SameAnswer t' u') : SameAnswer (if p then t else t') (if p then u else u') := by
  split
  · exact h
  · exact h'

theorem SameEnd.ite {x y x' y' : Host.Outcome State Fault Refusal} (p : Prop) [Decidable p]
    (h : SameEnd x y) (h' : SameEnd x' y') : SameEnd (if p then x else x') (if p then y else y') := by
  split
  · exact h
  · exact h'

theorem sameAnswer_raise (s : State) (b : Bool) (c : Cause) :
    SameAnswer (s.raise c) ((s.withFlt b).raise c) :=
  ⟨_, _, rfl, rfl, rfl, rfl, rfl, fun ok => absurd ok c.code_ne_ok⟩

theorem sameAnswer_finish (s : State) (b : Bool) (v : Word) :
    SameAnswer (s.finish v) ((s.withFlt b).finish v) :=
  ⟨_, _, rfl, rfl, rfl, rfl, rfl, fun _ => rfl⟩

/-- The gate reads MODE, not FLT. -/
theorem sameAnswer_gated (s : State) (b : Bool) (go go' : ByteOrder → State)
    (h : ∀ o, SameAnswer (go o) (go' o)) : SameAnswer (s.gated go) ((s.withFlt b).gated go') := by
  rcases s.gated_cases go with ⟨fresh, hs⟩ | ⟨o, set, hs⟩
  · rw [hs, (s.withFlt b).gated_uninit go' fresh]
    exact sameAnswer_raise s b _
  · rw [hs, (s.withFlt b).gated_ofOrder go' o set]
    exact h o

/-- Admission reads MEM_BYTES, not FLT. -/
theorem sameAnswer_bulk (s : State) (b : Bool) (ss ds : Nat) (src srcLen dst dstLen count : Word)
    (convert : ByteOrder → Memory → Memory) :
    SameAnswer (s.bulk ss ds src srcLen dst dstLen count convert)
      ((s.withFlt b).bulk ss ds src srcLen dst dstLen count convert) := by
  refine sameAnswer_gated s b _ _ fun o => ?_
  rw [s.withFlt_admission]
  cases s.admission ss ds src.toNat srcLen.toNat dst.toNat dstLen.toNat count.toNat with
  | some c => exact sameAnswer_raise s b c
  | none => exact sameAnswer_finish (s.withMem (convert o s.mem)) b 0#32

/-- TOINT's range check reads INT_W, not FLT. -/
theorem sameAnswer_tointAnswer (s : State) (b : Bool) (h : Half) :
    SameAnswer (tointAnswer h s) (tointAnswer h (s.withFlt b)) := by
  unfold tointAnswer
  cases f2i h with
  | none => exact sameAnswer_raise s b _
  | some n => exact .ite _ (sameAnswer_raise s b _) (sameAnswer_finish s b _)

/-- No command reads FLT (R22). -/
theorem sameEnd_exec (i : Instr) (s : State) (b : Bool) : SameEnd (exec i s) (exec i (s.withFlt b)) := by
  cases i with
  | init probe =>
    simp only [exec, execInit, State.withFlt_mode]
    cases s.mode with
    | uninit =>
      exact .ite _ (sameAnswer_finish (s.withMode .littleEndian) b 0#32).next
        (.ite _ (sameAnswer_finish (s.withMode .bigEndian) b 0#32).next (sameAnswer_raise s b _).next)
    | littleEndian => exact (sameAnswer_raise s b _).next
    | bigEndian => exact (sameAnswer_raise s b _).next
  | narrow src srcLen dst dstLen count => exact (sameAnswer_bulk s b 4 2 src srcLen dst dstLen count _).next
  | widen src srcLen dst dstLen count => exact (sameAnswer_bulk s b 2 4 src srcLen dst dstLen count _).next
  | narrow1 f => exact (sameAnswer_gated s b _ _ fun _ => sameAnswer_finish s b _).next
  | widen1 h => exact (sameAnswer_gated s b _ _ fun _ => sameAnswer_finish s b _).next
  | fromint n => exact (sameAnswer_gated s b _ _ fun _ => sameAnswer_finish s b _).next
  | toint h => exact (sameAnswer_gated s b _ _ fun _ => sameAnswer_tointAnswer s b h).next
  | cenc n =>
    exact .ite _ (sameAnswer_finish s b _).next
      (.ite _ (sameAnswer_raise s b _).next (sameAnswer_finish s b _).next)
  | cdec v =>
    exact .ite _ (sameAnswer_finish s b _).next
      (.ite _ (sameAnswer_finish s b _).next (sameAnswer_raise s b _).next)

theorem sameEnd_perform (d : Descriptor) (s : State) (b : Bool) :
    SameEnd (perform d s) (perform d (s.withFlt b)) := by
  unfold perform
  cases decode d with
  | command i => exact sameEnd_exec i s b
  | illegal => exact (sameAnswer_raise s b _).next

/-- Settles O16: the response tells FLT (`Response.Reports`), every step keeps a set FLT, and no command reads
it (`sameEnd_perform`). -/
theorem fltIsStickyAndNeverRead : Obligations.FltIsStickyAndNeverRead := by
  refine ⟨fun d s t r h hr => ?_, fun n s t h set => ?_, fun d s b => ?_, rfl⟩
  · have reports := reports_of_perform d s t r h hr
    exact ⟨reports.faultSetsFlt, reports.okKeepsFlt⟩
  · exact run_keeps (fun u => u.flt = true) step_keeps_flt n s t set h
  · obtain ⟨t, u, ht, hu, r, q, same⟩ := sameEnd_perform d s b
    exact ⟨t, u, r, q, ht, hu, same⟩

/-! ### STATUS (R23) -/

/-- STATUS[7:3]. -/
theorem State.stat_high (s : State) : s.stat.extractLsb' 3 5 = 0#5 := by
  unfold State.stat
  rw [BitVec.append_assoc, BitVec.cast_eq]
  exact BitVec.extractLsb'_append_eq_left

/-- STATUS[2]. -/
theorem State.stat_flt (s : State) : s.stat.getLsbD 2 = s.flt := by
  simp only [State.stat, BitVec.getLsbD_append]
  simp

/-- STATUS[1:0]. -/
theorem State.stat_mode (s : State) : s.stat.extractLsb' 0 2 = s.mode.bits :=
  BitVec.extractLsb'_append_eq_right

theorem Mode.bits_injective (m n : Mode) (h : m.bits = n.bits) : m = n := by
  revert h
  cases m <;> cases n <;> decide

theorem Mode.bits_ne_three (m : Mode) : m.bits ≠ 0b11#2 := by cases m <;> decide

theorem Mode.eq_iff_bits (m n : Mode) : m = n ↔ m.bits = n.bits :=
  ⟨congrArg Mode.bits, Mode.bits_injective m n⟩

/-- Settles O17: the fields of STATUS, the response of every command, and the store's frame. -/
theorem statusReportsModeAndFlt : Obligations.StatusReportsModeAndFlt := by
  refine ⟨fun s => ?_, fun d s t h => ?_, fun a b s t h => ?_, rfl⟩
  · rw [s.stat_mode]
    exact ⟨s.stat_high, s.stat_flt, s.mode.bits_ne_three, s.mode.eq_iff_bits .uninit,
      s.mode.eq_iff_bits .littleEndian, s.mode.eq_iff_bits .bigEndian⟩
  · obtain ⟨r, hr, reports⟩ := (commandEnd_of_perform d s t h).reports
    exact ⟨r, hr, reports.statCurrent⟩
  · obtain ⟨_, rfl⟩ := hostStore_eq_next s t a b h
    rfl

/-! ### Who writes MEM (R30, R49) -/

/-- A byte that narrowing an admitted buffer changes lies in the destination. -/
theorem narrowElements_changes (o : ByteOrder) (src dst n : Nat) (m : Memory) (a : Nat)
    (apart : n = 0 ∨ dst + 2 * n ≤ src ∨ src + 4 * n ≤ dst)
    (changed : (narrowElements o src dst n m).readByte a ≠ m.readByte a) : dst ≤ a ∧ a < dst + 2 * n := by
  by_contra outside
  rw [narrowElements_readByte o src dst n m apart, if_neg outside] at changed
  exact changed rfl

/-- A byte that widening an admitted buffer changes lies in the destination. -/
theorem widenElements_changes (o : ByteOrder) (src dst n : Nat) (m : Memory) (a : Nat)
    (apart : n = 0 ∨ dst + 4 * n ≤ src ∨ src + 2 * n ≤ dst)
    (changed : (widenElements o src dst n m).readByte a ≠ m.readByte a) : dst ≤ a ∧ a < dst + 4 * n := by
  by_contra outside
  rw [widenElements_readByte o src dst n m apart, if_neg outside] at changed
  exact changed rfl

/-- Settles O33: of the ends of a command only the two conversions write MEM, in the admitted destination. -/
theorem onlyBulkCommandsWriteMemory : Obligations.OnlyBulkCommandsWriteMemory := by
  intro i s t a h changed
  rcases exec_cases i s with ⟨c, he⟩ | ⟨v, he⟩ | ⟨probe, o, _, _, _, he⟩ |
    ⟨src, srcLen, dst, dstLen, count, o, hi, _, admitted, he⟩ |
    ⟨src, srcLen, dst, dstLen, count, o, hi, _, admitted, he⟩ <;>
    (rw [he] at h; injection h with h; subst h)
  · exact absurd rfl changed
  · exact absurd rfl changed
  · exact absurd rfl changed
  · obtain ⟨_, _, _, apart⟩ := (s.admission_eq_none ..).mp admitted
    obtain ⟨lower, upper⟩ := narrowElements_changes o _ _ _ s.mem a apart changed
    have := s.admission_destination_inside _ _ _ _ _ _ _ admitted
    exact .inl ⟨src, srcLen, dst, dstLen, count, hi, lower, upper, by omega⟩
  · obtain ⟨_, _, _, apart⟩ := (s.admission_eq_none ..).mp admitted
    obtain ⟨lower, upper⟩ := widenElements_changes o _ _ _ s.mem a apart changed
    have := s.admission_destination_inside _ _ _ _ _ _ _ admitted
    exact .inr ⟨src, srcLen, dst, dstLen, count, hi, lower, upper, by omega⟩

end Sys2Proof.Machine
end

section
/-! CENC and CDEC are mutual inverses (spec/43_cryptic_codec.md section 3, canonical patterns of
spec/10_state.md rule R33; O46): `pack` and `unpack` field by field, then the two commands as functions between
integers and patterns. -/

namespace Sys2Proof.Machine

/-! ### The fields of a 16-bit pattern (R28, R29) -/

@[simp] theorem halfSign_halfPack (s : Bool) (e : BitVec 8) (m : BitVec 7) : halfSign (halfPack s e m) = s := by
  simp only [halfSign, halfPack, BitVec.getLsbD_append]
  simp

@[simp] theorem halfExp_halfPack (s : Bool) (e : BitVec 8) (m : BitVec 7) : halfExp (halfPack s e m) = e :=
  (BitVec.extractLsb'_append_eq_of_le (Nat.le_refl 7)).trans BitVec.extractLsb'_append_eq_right

@[simp] theorem halfFrac_halfPack (s : Bool) (e : BitVec 8) (m : BitVec 7) : halfFrac (halfPack s e m) = m :=
  BitVec.extractLsb'_append_eq_right

/-- A pattern is packed from its own fields. -/
theorem halfPack_fields (v : Half) : halfPack (halfSign v) (halfExp v) (halfFrac v) = v := by
  unfold halfPack
  rw [append_eq_iff_slices, append_eq_iff_slices, extractLsb'_extractLsb' v 7 0 9 8 (by decide),
    extractLsb'_extractLsb' v 7 8 9 1 (by decide)]
  refine ⟨rfl, rfl, ?_⟩
  ext i hi
  simp [halfSign, show i = 0 by omega]

/-- With sign and exponent of `v`, a mantissa makes up `v` exactly when it is the mantissa of `v`. -/
theorem halfPack_eq_iff (v : Half) (m : BitVec 7) :
    halfPack (halfSign v) (halfExp v) m = v ↔ m = halfFrac v := by
  constructor
  · intro h
    rw [← h, halfFrac_halfPack]
  · rintro rfl
    exact halfPack_fields v

/-- The other sign is bit 15 flipped. -/
theorem halfPack_not (s : Bool) (e : BitVec 8) (m : BitVec 7) :
    halfPack (!s) e m = halfPack s e m ^^^ 0x8000#16 := by
  rw [show (0x8000#16 : Half) = 1#1 ++ 0#8 ++ 0#7 from rfl]
  unfold halfPack
  rw [BitVec.xor_append, BitVec.xor_append]
  cases s <;> simp

/-! ### `pack` (R161) -/

theorem hsb_eq_iff (m p : Nat) (h : m ≠ 0) : hsb m = p ↔ 2 ^ p ≤ m ∧ m < 2 ^ (p + 1) := Nat.log2_eq_iff h

/-- `m = 2^p + k` with `p` the highest set bit: `k` fits in `p` bits, and `p` is at most 7 for `m <= 255`. -/
theorem hsb_bounds (m : Nat) (h1 : 1 ≤ m) (h255 : m ≤ 255) :
    hsb m ≤ 7 ∧ 2 ^ hsb m ≤ m ∧ m < 2 * 2 ^ hsb m := by
  obtain ⟨lower, upper⟩ := (hsb_eq_iff m _ (by omega)).mp rfl
  refine ⟨?_, lower, by omega⟩
  have small : 2 ^ hsb m < 2 ^ 8 := by omega
  exact Nat.le_of_lt_succ ((Nat.pow_lt_pow_iff_right (by decide)).mp small)

/-- Left-aligning a number of `p` bits in seven. -/
theorem alignLeft_lt (k p : Nat) (hp : p ≤ 7) (hk : k < 2 ^ p) : k * 2 ^ (7 - p) < 2 ^ 7 := by
  calc k * 2 ^ (7 - p) < 2 ^ p * 2 ^ (7 - p) := Nat.mul_lt_mul_of_pos_right hk (Nat.two_pow_pos _)
    _ = 2 ^ 7 := by rw [← Nat.pow_add, Nat.add_sub_cancel' hp]

@[simp] theorem halfSign_pack (s : Bool) (m : Nat) : halfSign (pack s m) = s := halfSign_halfPack _ _ _

theorem halfExp_pack (s : Bool) (m : Nat) (h1 : 1 ≤ m) (h255 : m ≤ 255) :
    (halfExp (pack s m)).toNat = hsb m + Config.cicBias := by
  obtain ⟨hp, _⟩ := hsb_bounds m h1 h255
  rw [pack, halfExp_halfPack, BitVec.toNat_ofNat, Nat.mod_eq_of_lt (by unfold Config.cicBias; omega)]

theorem halfFrac_pack (s : Bool) (m : Nat) (h1 : 1 ≤ m) (h255 : m ≤ 255) :
    (halfFrac (pack s m)).toNat = (m - 2 ^ hsb m) * 2 ^ (7 - hsb m) := by
  obtain ⟨hp, _, upper⟩ := hsb_bounds m h1 h255
  rw [pack, halfFrac_halfPack, BitVec.toNat_ofNat, Nat.mod_eq_of_lt (alignLeft_lt _ _ hp (by omega))]

theorem exponentInFormat_iff (v : Half) :
    exponentInFormat v = true ↔ 127 ≤ (halfExp v).toNat ∧ (halfExp v).toNat ≤ 134 := by
  simp [exponentInFormat]

theorem exponentInFormat_pack (s : Bool) (m : Nat) (h1 : 1 ≤ m) (h255 : m ≤ 255) :
    exponentInFormat (pack s m) = true := by
  have := hsb_bounds m h1 h255
  rw [exponentInFormat_iff, halfExp_pack s m h1 h255]
  unfold Config.cicBias
  omega

theorem exponentInFormat_zero : exponentInFormat 0x0000#16 = false := by decide

/-! ### `unpack` (R168) -/

/-- `V.e - 127`, the position of the leading bit. -/
def leadingBit (v : Half) : Nat := (halfExp v).toNat - Config.cicBias

theorem leadingBit_eq (v : Half) : leadingBit v = (halfExp v).toNat - Config.cicBias := rfl

/-- The magnitude `unpack` gives a pattern, before the sign. -/
def unpackMagnitude (v : Half) : Nat := (halfFrac v).toNat / 2 ^ (7 - leadingBit v) + 2 ^ leadingBit v

theorem unpack_eq (v : Half) :
    unpack v = if halfSign v then -(unpackMagnitude v : Int) else (unpackMagnitude v : Int) := rfl

theorem canonical_iff (v : Half) :
    canonical v = true ↔
      v = 0x0000#16 ∨ exponentInFormat v = true ∧ (halfFrac v).toNat % 2 ^ (7 - leadingBit v) = 0 := by
  rw [canonical, Bool.or_eq_true, Bool.and_eq_true, decide_eq_true_iff, decide_eq_true_iff, leadingBit_eq]

theorem leadingBit_le (v : Half) (h : exponentInFormat v = true) : leadingBit v ≤ 7 := by
  obtain ⟨_, upper⟩ := (exponentInFormat_iff v).mp h
  rw [leadingBit_eq]
  exact Nat.sub_le_of_le_add upper

/-- The right-aligned mantissa fits below the leading bit. -/
theorem unpackMagnitude_bounds (v : Half) (h : exponentInFormat v = true) :
    2 ^ leadingBit v ≤ unpackMagnitude v ∧ unpackMagnitude v < 2 ^ (leadingBit v + 1) := by
  have aligned : (halfFrac v).toNat / 2 ^ (7 - leadingBit v) < 2 ^ leadingBit v := by
    rw [Nat.div_lt_iff_lt_mul (Nat.two_pow_pos _), ← Nat.pow_add, Nat.add_sub_cancel' (leadingBit_le v h)]
    exact (halfFrac v).isLt
  refine ⟨Nat.le_add_left _ _, ?_⟩
  calc unpackMagnitude v < 2 ^ leadingBit v + 2 ^ leadingBit v := Nat.add_lt_add_right aligned _
    _ = 2 ^ (leadingBit v + 1) := by rw [Nat.pow_succ, Nat.mul_two]

theorem unpackMagnitude_range (v : Half) (h : exponentInFormat v = true) :
    1 ≤ unpackMagnitude v ∧ unpackMagnitude v ≤ 255 := by
  obtain ⟨lower, upper⟩ := unpackMagnitude_bounds v h
  have positive := Nat.two_pow_pos (leadingBit v)
  have small : 2 ^ (leadingBit v + 1) ≤ 2 ^ 8 :=
    Nat.pow_le_pow_right (by decide) (Nat.succ_le_succ (leadingBit_le v h))
  omega

theorem hsb_unpackMagnitude (v : Half) (h : exponentInFormat v = true) : hsb (unpackMagnitude v) = leadingBit v :=
  (hsb_eq_iff _ _ (Nat.ne_of_gt (unpackMagnitude_range v h).1)).mpr (unpackMagnitude_bounds v h)

theorem natAbs_unpack (v : Half) : (unpack v).natAbs = unpackMagnitude v := by
  rw [unpack_eq]
  split <;> omega

theorem unpack_neg_iff (v : Half) (h : exponentInFormat v = true) : decide (unpack v < 0) = halfSign v := by
  have := unpackMagnitude_range v h
  rw [unpack_eq]
  split
  next negative => exact (decide_eq_true (by omega)).trans negative.symm
  next positive => exact (decide_eq_false (by omega)).trans (Bool.eq_false_iff.mpr positive).symm

/-! ### `pack` and `unpack` against each other -/

theorem unpackMagnitude_pack (s : Bool) (m : Nat) (h1 : 1 ≤ m) (h255 : m ≤ 255) :
    unpackMagnitude (pack s m) = m := by
  obtain ⟨_, lower, _⟩ := hsb_bounds m h1 h255
  have hp : leadingBit (pack s m) = hsb m := by
    rw [leadingBit_eq, halfExp_pack s m h1 h255, Nat.add_sub_cancel]
  rw [unpackMagnitude, hp, halfFrac_pack s m h1 h255, Nat.mul_div_cancel _ (Nat.two_pow_pos _),
    Nat.sub_add_cancel lower]

/-- Packing what `unpack` reads clears the low `7 - p` mantissa bits and keeps the rest. -/
theorem pack_unpackMagnitude (v : Half) (h : exponentInFormat v = true) :
    pack (halfSign v) (unpackMagnitude v) =
      halfPack (halfSign v) (halfExp v)
        (BitVec.ofNat 7 ((halfFrac v).toNat / 2 ^ (7 - leadingBit v) * 2 ^ (7 - leadingBit v))) := by
  obtain ⟨lower, _⟩ := (exponentInFormat_iff v).mp h
  have hexp : leadingBit v + Config.cicBias = (halfExp v).toNat := Nat.sub_add_cancel lower
  have hfrac : unpackMagnitude v - 2 ^ leadingBit v = (halfFrac v).toNat / 2 ^ (7 - leadingBit v) := by
    rw [unpackMagnitude, Nat.add_sub_cancel]
  rw [pack, hsb_unpackMagnitude v h, hexp, hfrac, BitVec.ofNat_toNat, BitVec.setWidth_eq]

/-- Packing what `unpack` reads gives the pattern back exactly when the low `7 - p` mantissa bits are zero. -/
theorem pack_unpackMagnitude_eq_iff (v : Half) (h : exponentInFormat v = true) :
    pack (halfSign v) (unpackMagnitude v) = v ↔ (halfFrac v).toNat % 2 ^ (7 - leadingBit v) = 0 := by
  have kept := Nat.div_mul_le_self (halfFrac v).toNat (2 ^ (7 - leadingBit v))
  have parts := Nat.div_add_mod' (halfFrac v).toNat (2 ^ (7 - leadingBit v))
  rw [pack_unpackMagnitude v h, halfPack_eq_iff, ← BitVec.toNat_inj, BitVec.toNat_ofNat,
    Nat.mod_eq_of_lt (Nat.lt_of_le_of_lt kept (halfFrac v).isLt)]
  omega

/-! ### The two commands as functions -/

/-- The pattern CENC answers for an integer in range (R160). -/
def cencPattern (i : Int) : Half := if i = 0 then 0x0000#16 else pack (decide (i < 0)) i.natAbs

/-- The integer CDEC answers for a pattern that has one (R165). -/
def cdecValue (v : Half) : Int := if v = 0x0000#16 then 0 else unpack v

/-- The patterns CDEC answers (R165, R166). -/
def cdecAnswers (v : Half) : Prop := v = 0x0000#16 ∨ exponentInFormat v = true

theorem cencPattern_of_ne_zero (i : Int) (h : i ≠ 0) : cencPattern i = pack (decide (i < 0)) i.natAbs := if_neg h

theorem ne_zero_of_exponentInFormat (v : Half) (h : exponentInFormat v = true) : v ≠ 0x0000#16 := by
  rintro rfl
  simp [exponentInFormat_zero] at h

theorem cdecValue_of_exponentInFormat (v : Half) (h : exponentInFormat v = true) : cdecValue v = unpack v :=
  if_neg (ne_zero_of_exponentInFormat v h)

theorem cdecAnswers_of_canonical (v : Half) (h : canonical v = true) : cdecAnswers v :=
  ((canonical_iff v).mp h).imp id And.left

/-- What CENC packs, CDEC answers, with the packed integer. -/
theorem cdecValue_cencPattern (i : Int) (h : i.natAbs ≤ 255) :
    cdecAnswers (cencPattern i) ∧ cdecValue (cencPattern i) = i := by
  by_cases h0 : i = 0
  · subst h0
    exact ⟨.inl rfl, rfl⟩
  · have inFormat := exponentInFormat_pack (decide (i < 0)) i.natAbs (by omega) h
    rw [cencPattern_of_ne_zero i h0]
    refine ⟨.inr inFormat, ?_⟩
    rw [cdecValue_of_exponentInFormat _ inFormat, unpack_eq, halfSign_pack,
      unpackMagnitude_pack _ _ (by omega) h]
    split
    · have := of_decide_eq_true ‹_›
      omega
    · have := of_decide_eq_false (Bool.eq_false_iff.mpr ‹_›)
      omega

/-- CENC is injective in its range, for it has a left inverse. -/
theorem cencPattern_injective (i j : Int) (hi : i.natAbs ≤ 255) (hj : j.natAbs ≤ 255)
    (h : cencPattern i = cencPattern j) : i = j := by
  rw [← (cdecValue_cencPattern i hi).2, h, (cdecValue_cencPattern j hj).2]

theorem natAbs_cdecValue_le (v : Half) (h : cdecAnswers v) : (cdecValue v).natAbs ≤ 255 := by
  rcases h with rfl | inFormat
  · decide
  · rw [cdecValue_of_exponentInFormat v inFormat, natAbs_unpack]
    exact (unpackMagnitude_range v inFormat).2

/-- CENC inverts CDEC on the canonical patterns and on no other pattern CDEC answers. -/
theorem cencPattern_cdecValue_eq_iff (v : Half) (h : cdecAnswers v) :
    cencPattern (cdecValue v) = v ↔ canonical v = true := by
  rcases h with rfl | inFormat
  · exact iff_of_true rfl (by decide)
  · have range := unpackMagnitude_range v inFormat
    have nonzero : unpack v ≠ 0 := by
      have := natAbs_unpack v
      omega
    rw [cdecValue_of_exponentInFormat v inFormat, cencPattern_of_ne_zero _ nonzero,
      unpack_neg_iff v inFormat, natAbs_unpack, pack_unpackMagnitude_eq_iff v inFormat, canonical_iff]
    simp [inFormat, ne_zero_of_exponentInFormat v inFormat]

/-- The image of CENC on its range is the canonical patterns. -/
theorem canonical_cencPattern (i : Int) (h : i.natAbs ≤ 255) : canonical (cencPattern i) = true := by
  obtain ⟨answers, value⟩ := cdecValue_cencPattern i h
  rw [← cencPattern_cdecValue_eq_iff _ answers, value]

/-- Negation flips the sign bit. -/
theorem cencPattern_neg (i : Int) (h : i ≠ 0) : cencPattern (-i) = cencPattern i ^^^ 0x8000#16 := by
  have flipped : decide (-i < 0) = !decide (i < 0) := by
    rw [← decide_not, decide_eq_decide]
    omega
  rw [cencPattern_of_ne_zero i h, cencPattern_of_ne_zero (-i) (by omega), flipped, Int.natAbs_neg]
  exact halfPack_not _ _ _

/-! ### Operands and results of `w` bits (R6, R9) -/

theorem zext_injective (v w : Half) (h : zext v = zext w) : v = w := by
  have back : ∀ x : Half, (zext x).setWidth 16 = x := fun x => by simp [zext]
  rw [← back v, h, back w]

theorem toNat_tc_mod (w : Nat) (i : Int) (h32 : w ≤ 32) : (tc w i).toNat % 2 ^ w = (i % 2 ^ w).toNat := by
  have positive : (0 : Int) < 2 ^ w := by positivity
  have nonneg := Int.emod_nonneg i positive.ne'
  have below := Int.emod_lt_of_pos i positive
  have fits : 2 ^ w ≤ 2 ^ 32 := Nat.pow_le_pow_right (by decide) h32
  have inWidth : (i % 2 ^ w).toNat < 2 ^ w := by
    rw [Int.toNat_lt nonneg]
    exact_mod_cast below
  rw [tc, BitVec.toNat_ofNat, Nat.mod_eq_of_lt (Nat.lt_of_lt_of_le inWidth fits), Nat.mod_eq_of_lt inWidth]

/-- An integer of `w` bits is read back from its two's-complement word. -/
theorem sval_tc (w : Nat) (i : Int) (h1 : 1 ≤ w) (h32 : w ≤ 32) (lower : -2 ^ (w - 1) ≤ i)
    (upper : i < 2 ^ (w - 1)) : sval w (tc w i) = i := by
  have double : (2 : Int) ^ w = 2 * 2 ^ (w - 1) := by rw [← pow_succ', Nat.sub_add_cancel h1]
  have cast : ((2 ^ (w - 1) : Nat) : Int) = 2 ^ (w - 1) := by norm_cast
  simp only [sval, toNat_tc_mod w i h32]
  by_cases negative : i < 0
  · have wrapped : i % 2 ^ w = i + 2 ^ w := by
      rw [← Int.add_emod_right, Int.emod_eq_of_lt (by omega) (by omega)]
    rw [wrapped, if_neg (by omega)]
    omega
  · rw [Int.emod_eq_of_lt (by omega) (by omega), if_pos (by omega)]
    omega

/-- Every INT_W of R6 holds every integer of the codec. -/
theorem sval_tc_of_codec (p : Params) (i : Int) (legal : p.wellFormed = true) (h : i.natAbs ≤ 255) :
    sval p.intW (tc p.intW i) = i := by
  obtain ⟨h10, h32⟩ : 10 ≤ p.intW ∧ p.intW ≤ 32 := by simpa [Params.wellFormed] using legal
  have wide : (2 : Int) ^ 9 ≤ 2 ^ (p.intW - 1) := pow_le_pow_right₀ (by decide) (by omega)
  exact sval_tc p.intW i (by omega) h32 (by omega) (by omega)

/-! ### The two commands (R160, R165) -/

theorem exec_cenc_inRange (n : Word) (s : State) (h : (sval s.params.intW n).natAbs ≤ 255) :
    exec (.cenc n) s = .next (s.finish (zext (cencPattern (sval s.params.intW n)))) := by
  show execCenc n s = _
  unfold execCenc
  by_cases h0 : sval s.params.intW n = 0
  · rw [h0]
    rfl
  · rw [cencPattern_of_ne_zero _ h0]
    exact (if_neg h0).trans (if_neg (Nat.not_lt.mpr h))

theorem exec_cenc_outOfRange (n : Word) (s : State) (h : 255 < (sval s.params.intW n).natAbs) :
    exec (.cenc n) s = .next (s.raise .encodeRange) := by
  have h0 : sval s.params.intW n ≠ 0 := by omega
  exact (if_neg h0).trans (if_pos h)

theorem exec_cdec_answers (v : Half) (s : State) (h : cdecAnswers v) :
    exec (.cdec v) s = .next (s.finish (tc s.params.intW (cdecValue v))) := by
  rcases h with rfl | inFormat
  · rfl
  · rw [cdecValue_of_exponentInFormat v inFormat]
    exact (if_neg (ne_zero_of_exponentInFormat v inFormat)).trans (if_pos inFormat)

theorem exec_cdec_reserved (v : Half) (s : State) (h : ¬ cdecAnswers v) :
    exec (.cdec v) s = .next (s.raise .invalidEncoding) := by
  obtain ⟨nonzero, reserved⟩ := not_or.mp h
  exact (if_neg nonzero).trans (if_neg reserved)

/-- A fault is no answer: it draws a free result. -/
theorem not_answeredWith_raise (v : Word) (s : State) (c : Cause) : ¬ AnsweredWith v s (s.raise c) :=
  fun h => Nat.succ_ne_self s.draws (congrArg State.draws h)

theorem answeredWith_finish_iff (v w : Word) (s : State) : AnsweredWith v s (s.finish w) ↔ w = v := by
  constructor
  · intro h
    have hr := congrArg State.response h
    rw [State.finish_response, Option.some.injEq, Response.mk.injEq] at hr
    exact hr.2.1
  · rintro rfl
    rfl

/-- CENC answers a pattern exactly when its operand is in range and has that pattern. -/
theorem cenc_answers_iff (n : Word) (v : Half) (s t : State) :
    (exec (.cenc n) s = .next t ∧ AnsweredWith (zext v) s t) ↔
      (sval s.params.intW n).natAbs ≤ 255 ∧ v = cencPattern (sval s.params.intW n) ∧ t = s.finish (zext v) := by
  constructor
  · rintro ⟨h, answered⟩
    rcases Nat.lt_or_ge 255 (sval s.params.intW n).natAbs with out | inRange
    · rw [exec_cenc_outOfRange n s out] at h
      injection h with h
      exact absurd (h ▸ answered) (not_answeredWith_raise _ s _)
    · rw [exec_cenc_inRange n s inRange] at h
      injection h with h
      subst h
      have same := zext_injective _ _ ((answeredWith_finish_iff _ _ s).mp answered)
      exact ⟨inRange, same.symm, same ▸ rfl⟩
  · rintro ⟨inRange, rfl, rfl⟩
    exact ⟨exec_cenc_inRange n s inRange, rfl⟩

/-- CDEC answers a word exactly when the pattern has a value, and with that value. -/
theorem cdec_answers_iff (v : Half) (x : Word) (s t : State) :
    (exec (.cdec v) s = .next t ∧ AnsweredWith x s t) ↔
      cdecAnswers v ∧ x = tc s.params.intW (cdecValue v) ∧ t = s.finish x := by
  constructor
  · rintro ⟨h, answered⟩
    by_cases hv : cdecAnswers v
    · rw [exec_cdec_answers v s hv] at h
      injection h with h
      subst h
      have same := (answeredWith_finish_iff _ _ s).mp answered
      exact ⟨hv, same.symm, same ▸ rfl⟩
    · rw [exec_cdec_reserved v s hv] at h
      injection h with h
      exact absurd (h ▸ answered) (not_answeredWith_raise x s _)
  · rintro ⟨hv, rfl, rfl⟩
    exact ⟨exec_cdec_answers v s hv, rfl⟩

/-- Settles O46: the laws of `cencPattern` and `cdecValue`, carried to the commands by `cenc_answers_iff` and
`cdec_answers_iff`; results come back as operands by `sval_tc_of_codec`. -/
theorem cencAndCdecAreMutualInverses : Obligations.CencAndCdecAreMutualInverses := by
  intro s legal
  refine ⟨fun n inRange => ?_, fun n m v t hn hm answered => ?_, fun v => ⟨fun hv => ?_, ?_⟩,
    fun v x t h answered => ?_, fun n m v t nonzero negated h answered => ?_⟩
  · obtain ⟨answers, value⟩ := cdecValue_cencPattern _ inRange
    have back := exec_cdec_answers _ (s.finish (zext (cencPattern (sval s.params.intW n)))) answers
    rw [value] at back
    exact ⟨_, _, _, exec_cenc_inRange n s inRange, rfl, back, rfl⟩
  · obtain ⟨inRange, hv, _⟩ := (cenc_answers_iff n v s t).mp ⟨hn, answered⟩
    obtain ⟨inRange', hv', _⟩ := (cenc_answers_iff m v s t).mp ⟨hm, answered⟩
    exact cencPattern_injective _ _ inRange inRange' (hv.symm.trans hv')
  · have answers := cdecAnswers_of_canonical v hv
    have inRange := natAbs_cdecValue_le v answers
    refine ⟨tc s.params.intW (cdecValue v), s.finish (zext v), (cenc_answers_iff ..).mpr ?_⟩
    rw [sval_tc_of_codec s.params _ legal inRange]
    exact ⟨inRange, ((cencPattern_cdecValue_eq_iff v answers).mpr hv).symm, rfl⟩
  · rintro ⟨n, t, h⟩
    obtain ⟨inRange, rfl, _⟩ := (cenc_answers_iff ..).mp h
    exact canonical_cencPattern _ inRange
  · obtain ⟨answers, rfl, rfl⟩ := (cdec_answers_iff v x s t).mp ⟨h, answered⟩
    have inRange := natAbs_cdecValue_le v answers
    have operand := sval_tc_of_codec s.params _ legal inRange
    have again := exec_cenc_inRange (tc s.params.intW (cdecValue v)) (s.finish (tc s.params.intW (cdecValue v)))
    rw [s.finish_params, operand] at again
    exact ⟨_, _, again inRange, rfl, cencPattern_cdecValue_eq_iff v answers⟩
  · obtain ⟨inRange, rfl, _⟩ := (cenc_answers_iff n v s t).mp ⟨h, answered⟩
    refine ⟨_, (cenc_answers_iff ..).mpr ⟨?_, ?_, rfl⟩⟩
    · rwa [negated, Int.natAbs_neg]
    · rw [negated, cencPattern_neg _ nonzero]

end Sys2Proof.Machine
end

section
/-! The admission of a bulk command (spec/20_memory.md rule R51; O30): one equation for each check of
`State.admission`, then the end of `State.bulk` for each answer of the gate and of admission. -/

namespace Sys2Proof.Machine

/-- Raising a cause meets the frame of R204. -/
theorem faultedWith_raise (c : Cause) (s : State) : FaultedWith c s (s.raise c) :=
  ⟨rfl, rfl, rfl, rfl, rfl, _, rfl⟩

/-- NARROW and WIDEN are bulk commands of their element sizes, whose conversion of no elements keeps MEM. -/
theorem exec_eq_bulk (src srcLen dst dstLen count : Word) (s : State) (i : Instr) (ss ds : Nat)
    (h : (i = .narrow src srcLen dst dstLen count ∧ ss = 4 ∧ ds = 2) ∨
      (i = .widen src srcLen dst dstLen count ∧ ss = 2 ∧ ds = 4)) :
    ∃ convert : ByteOrder → Memory → Memory,
      exec i s = .next (s.bulk ss ds src srcLen dst dstLen count convert) ∧
        ∀ o m, count.toNat = 0 → convert o m = m := by
  rcases h with ⟨rfl, rfl, rfl⟩ | ⟨rfl, rfl, rfl⟩
  · refine ⟨fun o => narrowElements o src.toNat dst.toNat count.toNat, rfl, fun o m zero => ?_⟩
    simp only [zero, narrowElements]
  · refine ⟨fun o => widenElements o src.toNat dst.toNat count.toNat, rfl, fun o m zero => ?_⟩
    simp only [zero, widenElements]

/-! ### The checks of admission, each after those before it -/

section
variable (s : State) {ss ds src srcLen dst dstLen count : Nat}

theorem State.admission_of_count (exceeds : srcLen < count ∨ dstLen < count) :
    s.admission ss ds src srcLen dst dstLen count = some .countExceedsBuffer := if_pos exceeds

theorem State.admission_of_misaligned (counted : ¬ (srcLen < count ∨ dstLen < count))
    (misaligned : src % ss ≠ 0 ∨ dst % ds ≠ 0) :
    s.admission ss ds src srcLen dst dstLen count = some .misaligned :=
  (if_neg counted).trans (if_pos misaligned)

theorem State.admission_of_beyond (counted : ¬ (srcLen < count ∨ dstLen < count))
    (aligned : ¬ (src % ss ≠ 0 ∨ dst % ds ≠ 0))
    (beyond : s.memBytes < src + ss * srcLen ∨ s.memBytes < dst + ds * dstLen) :
    s.admission ss ds src srcLen dst dstLen count = some .addressRange :=
  (if_neg counted).trans ((if_neg aligned).trans (if_pos beyond))

theorem State.admission_of_overlap (counted : ¬ (srcLen < count ∨ dstLen < count))
    (aligned : ¬ (src % ss ≠ 0 ∨ dst % ds ≠ 0))
    (inside : ¬ (s.memBytes < src + ss * srcLen ∨ s.memBytes < dst + ds * dstLen))
    (overlap : 1 ≤ count ∧ src < dst + ds * count ∧ dst < src + ss * count) :
    s.admission ss ds src srcLen dst dstLen count = some .bufferOverlap :=
  (if_neg counted).trans ((if_neg aligned).trans ((if_neg inside).trans (if_pos overlap)))

theorem State.admission_of_checked (counted : ¬ (srcLen < count ∨ dstLen < count))
    (aligned : ¬ (src % ss ≠ 0 ∨ dst % ds ≠ 0))
    (inside : ¬ (s.memBytes < src + ss * srcLen ∨ s.memBytes < dst + ds * dstLen))
    (apart : ¬ (1 ≤ count ∧ src < dst + ds * count ∧ dst < src + ss * count)) :
    s.admission ss ds src srcLen dst dstLen count = none :=
  (if_neg counted).trans ((if_neg aligned).trans ((if_neg inside).trans (if_neg apart)))

end

/-! ### The end of a bulk command -/

section
variable (s : State) {ss ds : Nat} {src srcLen dst dstLen count : Word} (convert : ByteOrder → Memory → Memory)

/-- The gate comes before admission (R104, R210). -/
theorem bulk_faults_at_gate (uninit : s.mode = .uninit) :
    FaultedWith .notInitialized s (s.bulk ss ds src srcLen dst dstLen count convert) := by
  rw [State.bulk, s.gated_uninit _ uninit]
  exact faultedWith_raise _ s

/-- After the gate, the cause of admission is the one reported. -/
theorem bulk_faults_at_admission (c : Cause) (set : s.mode ≠ .uninit)
    (refused : s.admission ss ds src.toNat srcLen.toNat dst.toNat dstLen.toNat count.toNat = some c) :
    FaultedWith c s (s.bulk ss ds src srcLen dst dstLen count convert) := by
  rcases s.bulk_cases ss ds src srcLen dst dstLen count convert with
    ⟨uninit, _⟩ | ⟨o, _, ⟨c', refused', he⟩ | ⟨admitted, _⟩⟩
  · exact absurd uninit set
  · have same : c = c' := Option.some.inj (refused.symm.trans refused')
    rw [he, same]
    exact faultedWith_raise c' s
  · exact nomatch refused.symm.trans admitted

/-- An admitted command writes MEM alone, with its conversion in one of the byte orders. -/
theorem bulk_writes_of_admitted (set : s.mode ≠ .uninit)
    (admitted : s.admission ss ds src.toNat srcLen.toNat dst.toNat dstLen.toNat count.toNat = none) :
    WroteOnlyMemory s (s.bulk ss ds src srcLen dst dstLen count convert) ∧
      ∃ o, (s.bulk ss ds src srcLen dst dstLen count convert).mem = convert o s.mem := by
  rcases s.bulk_cases ss ds src srcLen dst dstLen count convert with
    ⟨uninit, _⟩ | ⟨o, _, ⟨_, refused, _⟩ | ⟨_, he⟩⟩
  · exact absurd uninit set
  · exact nomatch refused.symm.trans admitted
  · rw [he]
    exact ⟨rfl, o, rfl⟩

end

/-- Settles O30: a case for each check, in the order of R51, by the equations of admission. -/
theorem bulkAdmissionMakesItsChecksInOrder : Obligations.BulkAdmissionMakesItsChecksInOrder := by
  intro src srcLen dst dstLen count s i ss ds h
  obtain ⟨convert, he, keeps⟩ := exec_eq_bulk src srcLen dst dstLen count s i ss ds h
  refine ⟨_, he, ?_⟩
  split_ifs with hmode hcount halign hrange hoverlap
  · exact bulk_faults_at_gate s convert hmode
  · exact bulk_faults_at_admission s convert _ hmode (s.admission_of_count hcount)
  · exact bulk_faults_at_admission s convert _ hmode (s.admission_of_misaligned hcount halign)
  · exact bulk_faults_at_admission s convert _ hmode (s.admission_of_beyond hcount halign hrange)
  · exact bulk_faults_at_admission s convert _ hmode (s.admission_of_overlap hcount halign hrange hoverlap)
  · have admitted := s.admission_of_checked hcount halign hrange hoverlap
    obtain ⟨wrote, o, converted⟩ := bulk_writes_of_admitted s convert hmode admitted
    exact ⟨wrote, fun zero => converted.trans (keeps o s.mem zero)⟩

end Sys2Proof.Machine
end

section
/-! Decoding and encoding (spec/30_encoding.md rules R71, R74 to R77): `CommandRow` is the opcode table, and every
fact about the decoder is read off it (O1 to O5, O9). -/

namespace Sys2Proof.Machine

/-! ### The opcode table (R74, R75) -/

/-- The rows of R74: the word W0 of each command, with its operands as R75 takes them. -/
inductive CommandRow (d : Descriptor) : Instr → Prop
  | init (w0 : d.w0 = 0x01#32) : CommandRow d (.init d.w1)
  | narrow (w0 : d.w0 = 0x02#32) : CommandRow d (.narrow d.w1 d.w2 d.w3 d.w4 d.w5)
  | widen (w0 : d.w0 = 0x03#32) : CommandRow d (.widen d.w1 d.w2 d.w3 d.w4 d.w5)
  | narrow1 (w0 : d.w0 = 0x04#32) : CommandRow d (.narrow1 d.w1)
  | widen1 (w0 : d.w0 = 0x05#32) : CommandRow d (.widen1 d.half)
  | fromint (w0 : d.w0 = 0x06#32) : CommandRow d (.fromint d.w1)
  | toint (w0 : d.w0 = 0x07#32) : CommandRow d (.toint d.half)
  | cenc (w0 : d.w0 = 0x08#32) : CommandRow d (.cenc d.w1)
  | cdec (w0 : d.w0 = 0x09#32) : CommandRow d (.cdec d.half)

theorem decode_of_row {d : Descriptor} {i : Instr} (row : CommandRow d i) : decode d = .command i := by
  cases row with
  | init w0 | narrow w0 | widen w0 | narrow1 w0 | widen1 w0 | fromint w0 | toint w0 | cenc w0 | cdec w0 =>
    simp [decode, Descriptor.opcode, w0]

/-- With zeros above it, the opcode is the whole of W0 (R71, R74). -/
theorem w0_eq_of_opcode {d : Descriptor} (high : d.w0.extractLsb' 8 24 = 0#24) {n : Nat}
    (opcode : d.opcode.toNat = n) : d.w0 = BitVec.ofNat 32 n := by
  have parts : d.w0.extractLsb' 8 24 ++ d.opcode = d.w0 := BitVec.extractLsb'_append_extractLsb'
  rw [← parts, high, ← opcode, BitVec.ofNat_toNat, BitVec.setWidth_eq_append (by decide)]
  rfl

theorem row_of_decode {d : Descriptor} {i : Instr} (h : decode d = .command i) : CommandRow d i := by
  unfold decode at h
  split at h
  · cases h
  · rename_i high
    have w0 := fun n => w0_eq_of_opcode (n := n) (not_not.mp high)
    split at h
    case h_1 opcode => cases h; exact .init (w0 _ opcode)
    case h_2 opcode => cases h; exact .narrow (w0 _ opcode)
    case h_3 opcode => cases h; exact .widen (w0 _ opcode)
    case h_4 opcode => cases h; exact .narrow1 (w0 _ opcode)
    case h_5 opcode => cases h; exact .widen1 (w0 _ opcode)
    case h_6 opcode => cases h; exact .fromint (w0 _ opcode)
    case h_7 opcode => cases h; exact .toint (w0 _ opcode)
    case h_8 opcode => cases h; exact .cenc (w0 _ opcode)
    case h_9 opcode => cases h; exact .cdec (w0 _ opcode)
    case h_10 => cases h

theorem decode_eq_command_iff {d : Descriptor} {i : Instr} : decode d = .command i ↔ CommandRow d i :=
  ⟨row_of_decode, decode_of_row⟩

/-! ### Legal descriptors (R76) -/

theorem legal_iff (d : Descriptor) : d.legal = true ↔ 1 ≤ d.w0.toNat ∧ d.w0.toNat ≤ 9 := by
  simp [Descriptor.legal]

/-- The nine rows are the legal descriptors. -/
theorem exists_row_iff_legal (d : Descriptor) : (∃ i, CommandRow d i) ↔ d.legal = true := by
  constructor
  · rintro ⟨i, row⟩
    cases row with
    | init w0 | narrow w0 | widen w0 | narrow1 w0 | widen1 w0 | fromint w0 | toint w0 | cenc w0 | cdec w0 =>
      simp [Descriptor.legal, w0]
  · intro legal
    obtain ⟨low, high⟩ := (legal_iff d).mp legal
    have w0 : d.w0 = BitVec.ofNat 32 d.w0.toNat := by simp
    generalize d.w0.toNat = n at w0 low high
    interval_cases n
    · exact ⟨_, .init w0⟩
    · exact ⟨_, .narrow w0⟩
    · exact ⟨_, .widen w0⟩
    · exact ⟨_, .narrow1 w0⟩
    · exact ⟨_, .widen1 w0⟩
    · exact ⟨_, .fromint w0⟩
    · exact ⟨_, .toint w0⟩
    · exact ⟨_, .cenc w0⟩
    · exact ⟨_, .cdec w0⟩

theorem exists_command_iff_legal (d : Descriptor) : (∃ i, decode d = .command i) ↔ d.legal = true := by
  simp only [decode_eq_command_iff, exists_row_iff_legal]

/-- The three forms of R76 are the descriptors that are not legal. -/
theorem illegal_forms_iff (d : Descriptor) :
    (d.w0 >>> 8 ≠ 0#32 ∨ d.w0 &&& 0xFF#32 = 0#32 ∨ 0x0A#32 ≤ d.w0 &&& 0xFF#32) ↔ ¬ d.legal = true := by
  have high : (d.w0 >>> 8).toNat = d.w0.toNat / 256 := by
    simp [BitVec.toNat_ushiftRight, Nat.shiftRight_eq_div_pow]
  have low : (d.w0 &&& 0xFF#32).toNat = d.w0.toNat % 256 :=
    (BitVec.toNat_and ..).trans (Nat.and_two_pow_sub_one_eq_mod _ 8)
  rw [legal_iff, ← BitVec.toNat_inj, ne_eq, ← BitVec.toNat_inj, BitVec.le_def, high, low]
  simp only [BitVec.toNat_ofNat]
  omega

/-! ### Encoding and the ignored bits (R77) -/

/-- A half extended with zeros (R79). -/
theorem half_extended (h : Half) : h.setWidth 32 = 0x0000#16 ++ h := BitVec.setWidth_eq_append (by decide)

/-- An extended half reads back as the half (R75). -/
theorem scalarDescriptor_half (opcode : Word) (h : Half) : (scalarDescriptor opcode (h.setWidth 32)).half = h :=
  (BitVec.extractLsb'_setWidth_of_le (by decide)).trans BitVec.extractLsb'_eq_self

/-- The low half of W1, extended with zeros, is W1 with its ignored bits zero. -/
theorem half_setWidth (d : Descriptor) : d.half.setWidth 32 = d.w1 &&& 0x0000FFFF#32 := by
  have low : d.half = d.w1.setWidth 16 := (BitVec.setWidth_eq_extractLsb' (by decide)).symm
  rw [half_extended, low]
  exact (BitVec.and_setWidth_allOnes 16 16 d.w1).symm

theorem decode_encode (i : Instr) : decode (encode i) = .command i := by
  cases i with
  | init probe => exact decode_of_row (.init rfl)
  | narrow src srcLen dst dstLen count => exact decode_of_row (.narrow rfl)
  | widen src srcLen dst dstLen count => exact decode_of_row (.widen rfl)
  | narrow1 f => exact decode_of_row (.narrow1 rfl)
  | widen1 h => rw [decode_of_row (d := encode (.widen1 h)) (.widen1 rfl), encode, scalarDescriptor_half]
  | fromint n => exact decode_of_row (.fromint rfl)
  | toint h => rw [decode_of_row (d := encode (.toint h)) (.toint rfl), encode, scalarDescriptor_half]
  | cenc n => exact decode_of_row (.cenc rfl)
  | cdec v => rw [decode_of_row (d := encode (.cdec v)) (.cdec rfl), encode, scalarDescriptor_half]

theorem encode_eq_withoutIgnored {d : Descriptor} {i : Instr} (h : decode d = .command i) :
    encode i = d.withoutIgnored := by
  cases row_of_decode h with
  | init w0 | narrow1 w0 | fromint w0 | cenc w0 => simp [Descriptor.withoutIgnored, encode, scalarDescriptor, w0]
  | narrow w0 | widen w0 =>
    obtain ⟨_, _, _, _, _, _⟩ := d
    cases w0
    rfl
  | widen1 w0 | toint w0 | cdec w0 =>
    simp [Descriptor.withoutIgnored, encode, scalarDescriptor, w0, half_setWidth]

/-- Nothing is ignored of an illegal descriptor. -/
theorem withoutIgnored_of_not_legal {d : Descriptor} (h : ¬ d.legal = true) : d.withoutIgnored = d := by
  rw [legal_iff] at h
  unfold Descriptor.withoutIgnored
  rw [if_neg, if_neg]
  · rintro (w0 | w0 | w0) <;> exact h (by simp [w0])
  · rintro (w0 | w0 | w0 | w0) <;> exact h (by simp [w0])

/-- Decoding reads no ignored bit. -/
theorem decode_withoutIgnored (d : Descriptor) : decode d.withoutIgnored = decode d := by
  by_cases legal : d.legal = true
  · obtain ⟨i, hi⟩ := (exists_command_iff_legal d).mpr legal
    rw [← encode_eq_withoutIgnored hi, decode_encode, hi]
  · rw [withoutIgnored_of_not_legal legal]

/-- Settles O1: the rows of the opcode table, read in both directions. -/
theorem decodeAndEncodeAgree : Obligations.DecodeAndEncodeAgree :=
  ⟨decode_encode, fun _ _ => encode_eq_withoutIgnored⟩

/-! ### Performing a descriptor -/

theorem perform_of_command {d : Descriptor} {i : Instr} (h : decode d = .command i) (s : State) :
    perform d s = exec i s := by simp [perform, h]

theorem perform_of_not_legal {d : Descriptor} (h : ¬ d.legal = true) (s : State) :
    perform d s = .next (s.raise .illegalCommand) := by
  cases hd : decode d with
  | command i => exact absurd ((exists_command_iff_legal d).mp ⟨i, hd⟩) h
  | illegal why => simp [perform, hd]

/-- Every command goes on to a next state (R70). -/
theorem exec_goes_on (i : Instr) (s : State) : ∃ t, exec i s = .next t := by
  rcases exec_cases i s with ⟨c, he⟩ | ⟨v, he⟩ | ⟨_, _, _, _, _, he⟩ |
    ⟨_, _, _, _, _, _, _, _, _, he⟩ | ⟨_, _, _, _, _, _, _, _, _, he⟩ <;> exact ⟨_, he⟩

theorem perform_goes_on (d : Descriptor) (s : State) : ∃ t, perform d s = .next t := by
  unfold perform
  cases decode d with
  | command i => exact exec_goes_on i s
  | illegal why => exact ⟨_, rfl⟩

theorem CommandEnd.inbox_eq {d : Descriptor} {s t : State} (h : CommandEnd d s t) : t.inbox = s.inbox := by
  cases h <;> rfl

theorem sval_zero (w : Nat) : sval w 0#32 = 0 := by simp [sval]

/-- The command without effect (R76, R160). -/
theorem exec_cenc_zero (s : State) : exec (.cenc 0#32) s = .next (s.finish 0#32) := by
  simp [exec, execCenc, sval_zero, zext]

/-- Settles O2: the three forms are the descriptors that are not legal, and each of those raises. -/
theorem illegalDescriptorsRaiseIllegalCommand : Obligations.IllegalDescriptorsRaiseIllegalCommand := by
  refine ⟨fun d => ?_, fun s d rest next illegal => ?_, fun s => ⟨_, exec_cenc_zero s, rfl⟩⟩
  · rw [illegal_forms_iff, ← exists_command_iff_legal, not_exists]
  · rw [step_of_issue s d rest next, perform_of_not_legal ((illegal_forms_iff d).mp illegal)]
    exact ⟨_, rfl, faultedWith_raise _ _⟩

theorem decode_eq_iff_withoutIgnored_eq {d e : Descriptor} (legal : d.legal = true) :
    decode d = decode e ↔ d.withoutIgnored = e.withoutIgnored := by
  constructor
  · intro same
    obtain ⟨i, hi⟩ := (exists_command_iff_legal d).mpr legal
    rw [← encode_eq_withoutIgnored hi, ← encode_eq_withoutIgnored (same ▸ hi)]
  · intro same
    rw [← decode_withoutIgnored d, same, decode_withoutIgnored e]

/-- Performing depends on the decoding alone. -/
theorem perform_congr {d e : Descriptor} (same : decode d = decode e) (s : State) : perform d s = perform e s := by
  rw [perform, perform, same]

/-- Settles O3: decoding reads no ignored bit, and performing depends on the decoding alone. -/
theorem ignoredBitsHaveNoEffect : Obligations.IgnoredBitsHaveNoEffect := by
  intro d e legal
  refine ⟨decode_eq_iff_withoutIgnored_eq legal, fun same s rest => ?_⟩
  have alike : decode d = decode e := (decode_eq_iff_withoutIgnored_eq legal).mpr same
  rw [step_of_issue _ d rest rfl, step_of_issue _ e rest rfl]
  obtain ⟨t, ht⟩ := perform_goes_on d ((s.withInbox (.issue d :: rest)).withInbox rest)
  obtain ⟨r, hr, _⟩ := (commandEnd_of_perform d _ t ht).reports
  exact ⟨t, t, r, r, ht, (perform_congr alike _).symm.trans ht, hr, hr,
    rfl, rfl, rfl, rfl, rfl, rfl, rfl, fun _ => rfl⟩

/-- Settles O9: every descriptor goes on, and its end tells the response and the frame. -/
theorem everyDescriptorGetsAResponse : Obligations.EveryDescriptorGetsAResponse := by
  intro d s
  obtain ⟨t, ht⟩ := perform_goes_on d s
  have ends := commandEnd_of_perform d s t ht
  obtain ⟨r, hr, reports⟩ := ends.reports
  exact ⟨t, r, ht, hr, reports.statusInTable, reports.statCurrent, ends.inbox_eq, ends.params_eq⟩

theorem decodeTableWord_eq_some {nbits w : Nat} {i : Instr} (h : decodeTableWord nbits w = some i) :
    decode (Descriptor.ofTableWord nbits w) = .command i := by
  unfold decodeTableWord at h
  split at h
  · rename_i hd
    rw [hd, Option.some.inj h]
  · cases h

/-- Settles O4, for the stream of moves of log entry 7. -/
theorem stepRunsTheDecodedCommand : Obligations.StepRunsTheDecodedCommand := by
  refine ⟨fun s d rest i next hd => ?_, fun s nbits w i hw => ?_⟩
  · rw [step_of_issue s d rest next, perform_of_command hd]
  · rw [step_of_issue (s.withFetchWord nbits w) _ s.inbox rfl, perform_of_command (decodeTableWord_eq_some hw)]
    rfl

/-- Settles O5: each of the nine descriptors is in the row of its command. -/
theorem writtenOutDescriptorsDecode : Obligations.WrittenOutDescriptorsDecode :=
  ⟨decode_of_row (.init rfl), decode_of_row (.narrow rfl), decode_of_row (.widen rfl), decode_of_row (.narrow1 rfl),
    decode_of_row (.widen1 rfl), decode_of_row (.fromint rfl), decode_of_row (.toint rfl),
    decode_of_row (.cenc rfl), decode_of_row (.cdec rfl)⟩

end Sys2Proof.Machine
end

section
/-! The assembler (spec/30_encoding.md rules R79, R80; O10, O11, O48): what each kind of operand assembles to, that an
assembled command is a legal descriptor, and the reading of a whole line of text. -/

namespace Sys2Proof.Machine

/-! ### Operands -/

theorem asmWord_toNat (w : Word) : asmWord (false, w.toNat) = some w := by simp [asmWord, w.isLt]

theorem asmHalf_toNat (h : Half) : asmHalf (false, h.toNat) = some h := by simp [asmHalf, h.isLt]

/-- A negative operand is its two's-complement pattern (R79). -/
theorem asmSigned_neg {n : Nat} (inRange : n ≤ 2 ^ 31) : asmSigned (true, n) = some (-BitVec.ofNat 32 n) := by
  rw [asmSigned, if_pos rfl, if_pos inRange, BitVec.ofInt_neg, BitVec.ofInt_natCast]

theorem asmSigned_nonneg {n : Nat} (inRange : n < 2 ^ 31) : asmSigned (false, n) = some (BitVec.ofNat 32 n) := by
  rw [asmSigned, if_neg Bool.false_ne_true, if_pos (by omega)]

/-! ### Commands -/

/-- A mnemonic of one operand assembles to the encoding of the operand read. -/
theorem map_encode_asmOne {α : Type} {read : AsmNumber → Option α} {a : AsmNumber} {x : α} (make : α → Instr)
    (h : read a = some x) : (asmOne read make [a]).map encode = some (encode (make x)) := by
  simp [asmOne, h]

/-- The five operands of a bulk mnemonic are read in the order written. -/
theorem asmBulk_toNat (make : Word → Word → Word → Word → Word → Instr) (src srcLen dst dstLen count : Word) :
    asmBulk make [(false, src.toNat), (false, srcLen.toNat), (false, dst.toNat), (false, dstLen.toNat),
      (false, count.toNat)] = some (make src srcLen dst dstLen count) := by
  simp only [asmBulk, asmWord_toNat]

/-- A 16-bit operand is written extended with zeros. -/
theorem map_encode_asmHalf (opcode : Word) (make : Half → Instr)
    (row : ∀ h, encode (make h) = scalarDescriptor opcode (h.setWidth 32)) (h : Half) :
    (asmOne asmHalf make [(false, h.toNat)]).map encode =
      some ⟨opcode, 0x0000#16 ++ h, 0#32, 0#32, 0#32, 0#32⟩ := by
  rw [map_encode_asmOne make (asmHalf_toNat h), row, half_extended]
  rfl

theorem encode_assembled (i : Instr) : Laws.EncodeAssembled.Statement i := by
  cases i with
  | init probe => exact Laws.EncodeAssembled.init probe
  | narrow src srcLen dst dstLen count => exact Laws.EncodeAssembled.narrow src srcLen dst dstLen count
  | widen src srcLen dst dstLen count => exact Laws.EncodeAssembled.widen src srcLen dst dstLen count
  | narrow1 f => exact Laws.EncodeAssembled.narrow1 f
  | widen1 h => exact Laws.EncodeAssembled.widen1 h
  | fromint n => exact Laws.EncodeAssembled.fromint n
  | toint h => exact Laws.EncodeAssembled.toint h
  | cenc n => exact Laws.EncodeAssembled.cenc n
  | cdec v => exact Laws.EncodeAssembled.cdec v

/-- Settles O10: the operands as read, then the encoding of the command. -/
theorem assembledLinesDecodeToTheirCommand : Obligations.AssembledLinesDecodeToTheirCommand := by
  refine ⟨fun w => ?init, fun src srcLen dst dstLen count => ⟨?narrow, ?widen⟩, fun w => ?narrow1,
    fun h => ⟨?widen1, ?toint, ?cdec⟩, fun n inRange => ⟨?fromintNeg, ?cencNeg⟩,
    fun n inRange => ⟨?fromint, ?cenc⟩, fun k ops d assembled => ?decodes⟩
  case init => exact map_encode_asmOne .init (asmWord_toNat w)
  case narrow => exact congrArg (Option.map encode) (asmBulk_toNat .narrow src srcLen dst dstLen count)
  case widen => exact congrArg (Option.map encode) (asmBulk_toNat .widen src srcLen dst dstLen count)
  case narrow1 => exact map_encode_asmOne .narrow1 (asmWord_toNat w)
  case widen1 => exact map_encode_asmHalf 0x05#32 .widen1 (fun _ => rfl) h
  case toint => exact map_encode_asmHalf 0x07#32 .toint (fun _ => rfl) h
  case cdec => exact map_encode_asmHalf 0x09#32 .cdec (fun _ => rfl) h
  case fromintNeg => exact map_encode_asmOne .fromint (asmSigned_neg inRange)
  case cencNeg => exact map_encode_asmOne .cenc (asmSigned_neg inRange)
  case fromint => exact map_encode_asmOne .fromint (asmSigned_nonneg inRange)
  case cenc => exact map_encode_asmOne .cenc (asmSigned_nonneg inRange)
  case decodes =>
    obtain ⟨i, hi, rfl⟩ := Option.map_eq_some_iff.mp assembled
    obtain ⟨_, legal, zeros⟩ := encode_assembled i
    exact ⟨legal, zeros, i, hi, decode_encode i⟩

/-- Settles O11: a pseudo-command is the command of its expansion, before it is encoded. -/
theorem pseudoCommandsAreTheirExpansions : Obligations.PseudoCommandsAreTheirExpansions :=
  ⟨rfl, rfl, rfl, fun _ => rfl, fun _ => rfl, fun _ => rfl, fun _ => rfl⟩

/-! ### Lines of text -/

/-- A mnemonic is written in characters that end neither it nor the line. -/
theorem mnemonic_plain {e : List Char × Mnemonic} (h : e ∈ mnemonicTable) :
    e.1 ≠ [] ∧ ∀ c ∈ e.1, asmBlank c = false ∧ c ≠ ';' := by
  have table : (mnemonicTable.all fun e => !e.1.isEmpty && e.1.all fun c => !asmBlank c && c != ';') = true := by
    decide
  simpa using List.all_eq_true.mp table e h

/-- No two mnemonics are spelled alike. -/
theorem find_mnemonic {e : List Char × Mnemonic} (h : e ∈ mnemonicTable) :
    mnemonicTable.find? (fun p => p.1 == e.1) = some e := by
  have table : ∀ e ∈ mnemonicTable, mnemonicTable.find? (fun p => p.1 == e.1) = some e := by decide
  exact table e h

/-- The text of a line before its comment, without the white space around it. -/
def codeText (line : List Char) : List Char := asmTrim (line.takeWhile fun c => c != ';')

/-- A line whose text is a mnemonic of the table, then nothing or white space and operands that read as `ops`. -/
theorem asmLine_of_codeText {line sep : List Char} {e : List Char × Mnemonic} {ops : List AsmNumber}
    (mnemonic : e ∈ mnemonicTable) (text : codeText line = e.1 ++ sep)
    (blank : ∀ c ∈ sep.head?, asmBlank c = true)
    (reads : (if asmTrim sep = [] then some [] else asmNumbers (asmFields (asmTrim sep))) = some ops) :
    asmLine line = (assemble e.2 ops).map some := by
  obtain ⟨nonempty, plain⟩ := mnemonic_plain mnemonic
  have name : ∀ c ∈ e.1, (!asmBlank c) = true := fun c hc => by simp [(plain c hc).1]
  have sepTake : sep.takeWhile (fun c => !asmBlank c) = [] := by
    cases sep with
    | nil => rfl
    | cons c rest => simp [blank c rfl]
  have sepDrop : sep.dropWhile (fun c => !asmBlank c) = sep := by
    cases sep with
    | nil => rfl
    | cons c rest => simp [blank c rfl]
  unfold codeText at text
  simp only [asmLine, text, List.append_eq_nil_iff, nonempty, false_and, if_false,
    List.takeWhile_append_of_pos name, List.dropWhile_append_of_pos name, sepTake, sepDrop, List.append_nil,
    find_mnemonic mnemonic, reads]

/-- What follows the mnemonic in the text of a line: the space before the operands, if there are any. -/
def separated (operands : List (Bool × AsmNumber)) : List Char :=
  if operands = [] then [] else ' ' :: operandsText operands

theorem separated_head_blank (operands : List (Bool × AsmNumber)) :
    ∀ c ∈ (separated operands).head?, asmBlank c = true := by
  cases operands with
  | nil => exact fun c hc => nomatch hc
  | cons o operands => rintro _ ⟨⟩; rfl

theorem asmTrim_separated (operands : List (Bool × AsmNumber)) :
    asmTrim (separated operands) = operandsText operands := by
  cases operands with
  | nil => rfl
  | cons o operands => exact (asmTrim_blank _).trans (asmTrim_operandsText _)

/-- The operands as written read as the operands, none included. -/
theorem reads_operandsText (operands : List (Bool × AsmNumber)) :
    (if operandsText operands = [] then some [] else asmNumbers (asmFields (operandsText operands))) =
      some (operands.map fun o => o.2) := by
  cases operands with
  | nil => rfl
  | cons o operands =>
    obtain ⟨c, l, starts, _⟩ := operandsText_head o operands
    rw [if_neg (by simp [starts]), asmNumbers_operandsText]

/-- A written line without the white space around it. -/
theorem asmTrim_lineText {e : List Char × Mnemonic} (mnemonic : e ∈ mnemonicTable)
    (operands : List (Bool × AsmNumber)) : asmTrim (lineText e.1 operands) = e.1 ++ separated operands := by
  obtain ⟨nonempty, plain⟩ := mnemonic_plain mnemonic
  have first : ∀ l : List Char, ∀ c ∈ (e.1 ++ l).head?, asmBlank c = false := fun l c hc =>
    (plain c (List.mem_of_mem_head? (by rwa [List.head?_append_of_ne_nil _ nonempty] at hc))).1
  cases operands with
  | nil =>
    have last : ∀ c ∈ e.1.getLast?, asmBlank c = false := fun c hc => (plain c (List.mem_of_mem_getLast? hc)).1
    calc asmTrim (e.1 ++ [' ']) = asmTrim e.1 := asmTrim_append_blank e.1
      _ = e.1 := asmTrim_self (by simpa using first []) last
      _ = e.1 ++ separated [] := (List.append_nil e.1).symm
  | cons o operands =>
    obtain ⟨l, d, ends, blank⟩ := operandsText_last o operands
    refine asmTrim_self (first _) ?_
    have split : lineText e.1 (o :: operands) = (e.1 ++ ' ' :: l) ++ [d] := by
      rw [List.append_assoc, List.cons_append, ← ends]
      rfl
    rw [split, List.getLast?_concat]
    rintro _ ⟨⟩
    exact blank

theorem lineText_no_comment {e : List Char × Mnemonic} (mnemonic : e ∈ mnemonicTable)
    (operands : List (Bool × AsmNumber)) : ∀ c ∈ lineText e.1 operands, (c != ';') = true := by
  intro c hc
  rw [bne_iff_ne]
  rcases List.mem_append.mp hc with hc | hc
  · exact ((mnemonic_plain mnemonic).2 c hc).2
  · rcases List.mem_cons.mp hc with rfl | hc
    · decide
    · exact operandsText_no_comment operands c hc

theorem codeText_lineText {e : List Char × Mnemonic} (mnemonic : e ∈ mnemonicTable)
    (operands : List (Bool × AsmNumber)) : codeText (lineText e.1 operands) = e.1 ++ separated operands := by
  rw [codeText, List.takeWhile_eq_self_iff.mpr (lineText_no_comment mnemonic operands),
    asmTrim_lineText mnemonic]

/-- A comment and the space before it are no part of the text. -/
theorem codeText_comment {e : List Char × Mnemonic} (mnemonic : e ∈ mnemonicTable)
    (operands : List (Bool × AsmNumber)) (comment : List Char) :
    codeText (lineText e.1 operands ++ ' ' :: ';' :: comment) = e.1 ++ separated operands := by
  have before : (' ' :: ';' :: comment).takeWhile (fun c => c != ';') = [' '] := rfl
  rw [codeText, List.takeWhile_append_of_pos (lineText_no_comment mnemonic operands), before,
    asmTrim_append_blank, asmTrim_lineText mnemonic]

/-- A line whose text is a written mnemonic with written operands assembles to their descriptor. -/
theorem asmLine_of_written {line : List Char} {e : List Char × Mnemonic} (mnemonic : e ∈ mnemonicTable)
    (operands : List (Bool × AsmNumber)) (text : codeText line = e.1 ++ separated operands) :
    asmLine line = (assemble e.2 (operands.map fun o => o.2)).map some :=
  asmLine_of_codeText mnemonic text (separated_head_blank operands)
    (by rw [asmTrim_separated, reads_operandsText])

/-- Settles O48, for the lines of log entry 16: the text of the line, with or without a comment, is the mnemonic and
its operands. -/
theorem linesOfTextAssembleToTheirDescriptors : Obligations.LinesOfTextAssembleToTheirDescriptors := by
  intro e listed operands comment
  have mnemonic : (e.1.toList, e.2) ∈ mnemonicTable := by
    revert e
    decide
  exact ⟨asmLine_of_written mnemonic operands (codeText_lineText mnemonic operands),
    asmLine_of_written mnemonic operands (codeText_comment mnemonic operands comment)⟩

end Sys2Proof.Machine
end

section
/-! INIT (spec/40_init.md rules R100, R102, R104): its four equations, from which its outcome and what it depends on
are read off, and the gate it opens (O22, O24, O25). -/

namespace Sys2Proof.Machine

/-! ### The four ends of INIT (R100) -/

theorem exec_init_of_set (probe : Word) (s : State) (set : s.mode ≠ .uninit) :
    exec (.init probe) s = .next (s.raise .alreadyInitialized) := by
  cases hm : s.mode with
  | uninit => exact absurd hm set
  | littleEndian => simp [exec, execInit, hm]
  | bigEndian => simp [exec, execInit, hm]

theorem exec_init_littleEndian (s : State) (uninit : s.mode = .uninit) :
    exec (.init 0x00000001#32) s = .next ((s.withMode .littleEndian).finish 0#32) := by
  simp [exec, execInit, uninit]

theorem exec_init_bigEndian (s : State) (uninit : s.mode = .uninit) :
    exec (.init 0x00000100#32) s = .next ((s.withMode .bigEndian).finish 0#32) := by
  simp [exec, execInit, uninit]

theorem exec_init_illegal_probe (probe : Word) (s : State) (uninit : s.mode = .uninit)
    (notLittle : probe ≠ 0x00000001#32) (notBig : probe ≠ 0x00000100#32) :
    exec (.init probe) s = .next (s.raise .probeInvalid) := by
  simp [exec, execInit, uninit, notLittle, notBig]

/-- Settles O22, an equation of INIT for each of its four ends. -/
theorem initSetsModeFromTheProbe : Obligations.InitSetsModeFromTheProbe := by
  intro probe s
  refine ⟨fun set => ⟨_, exec_init_of_set probe s set, faultedWith_raise _ s⟩, fun uninit => ⟨?_, ?_, ?_⟩⟩
  · rintro rfl
    exact ⟨_, exec_init_littleEndian s uninit, rfl⟩
  · rintro rfl
    exact ⟨_, exec_init_bigEndian s uninit, rfl⟩
  · intro notLittle notBig
    exact ⟨_, exec_init_illegal_probe probe s uninit notLittle notBig, faultedWith_raise _ s⟩

/-! ### What INIT's outcome depends on (R102) -/

/-- MODE and the probe decide between one cause and one new MODE, the same for every state with that MODE. -/
theorem exec_init_decided (probe : Word) (m : Mode) :
    (∃ c, ∀ s : State, s.mode = m → exec (.init probe) s = .next (s.raise c)) ∨
      ∃ m', ∀ s : State, s.mode = m → exec (.init probe) s = .next ((s.withMode m').finish 0#32) := by
  by_cases uninit : m = .uninit
  · subst uninit
    by_cases little : probe = 0x00000001#32
    · exact .inr ⟨_, little ▸ exec_init_littleEndian⟩
    · by_cases big : probe = 0x00000100#32
      · exact .inr ⟨_, big ▸ exec_init_bigEndian⟩
      · exact .inl ⟨_, fun s hs => exec_init_illegal_probe probe s hs little big⟩
  · exact .inl ⟨_, fun s hs => exec_init_of_set probe s (hs ▸ uninit)⟩

/-- Settles O24: both states end alike by `exec_init_decided`; a fault leaves the MODE they share, and its result is
not compared. -/
theorem initOutcomeDependsOnModeAndProbeOnly : Obligations.InitOutcomeDependsOnModeAndProbeOnly := by
  intro probe s u same
  rcases exec_init_decided probe u.mode with ⟨c, ends⟩ | ⟨m', ends⟩
  · exact ⟨_, _, _, _, ends s same, ends u rfl, rfl, rfl, same, rfl, fun ok => absurd ok c.code_ne_ok⟩
  · exact ⟨_, _, _, _, ends s same, ends u rfl, rfl, rfl, rfl, rfl, fun _ => rfl⟩

/-! ### The gate (R104) -/

theorem gated_faults_at_gate (s : State) (go : ByteOrder → State) (uninit : s.mode = .uninit) :
    FaultedWith .notInitialized s (s.gated go) := by
  rw [s.gated_uninit go uninit]
  exact faultedWith_raise _ s

/-- CENC answers or raises EncodeRange, in every state (R160). -/
theorem exec_cenc_cases (n : Word) (s : State) :
    (∃ v, exec (.cenc n) s = .next (s.finish v)) ∨ exec (.cenc n) s = .next (s.raise .encodeRange) := by
  by_cases inRange : (sval s.params.intW n).natAbs ≤ 255
  · exact .inl ⟨_, exec_cenc_inRange n s inRange⟩
  · exact .inr (exec_cenc_outOfRange n s (by omega))

/-- CDEC answers or raises InvalidEncoding, in every state (R165, R166). -/
theorem exec_cdec_cases (v : Half) (s : State) :
    (∃ x, exec (.cdec v) s = .next (s.finish x)) ∨ exec (.cdec v) s = .next (s.raise .invalidEncoding) := by
  by_cases answers : cdecAnswers v
  · exact .inl ⟨_, exec_cdec_answers v s answers⟩
  · exact .inr (exec_cdec_reserved v s answers)

/-- A command that answers or raises `c` never reports another cause. -/
theorem status_ne_of_answers_or_raises {i : Instr} {s t : State} {r : Response} {c c' : Cause}
    (ends : (∃ v, exec i s = .next (s.finish v)) ∨ exec i s = .next (s.raise c)) (other : c ≠ c')
    (h : exec i s = .next t) (hr : t.response = some r) : r.status ≠ c'.code := by
  rcases ends with ⟨v, he⟩ | he
  · obtain rfl : s.finish v = t := Host.Outcome.next.inj (he.symm.trans h)
    obtain rfl := Option.some.inj hr
    exact c'.code_ne_ok.symm
  · obtain rfl : s.raise c = t := Host.Outcome.next.inj (he.symm.trans h)
    obtain rfl := Option.some.inj hr
    exact fun same => other (c.code_injective c' same)

/-- Settles O25: the six commands are behind the gate; the codec's only causes are EncodeRange and InvalidEncoding. -/
theorem conversionsAreGatedByInit : Obligations.ConversionsAreGatedByInit := by
  refine fun s => ⟨fun uninit => ⟨?narrow, ?widen, ?narrow1, ?widen1, ?fromint, ?toint⟩, ?cenc, ?cdec⟩
  case narrow => exact fun _ _ _ _ _ => ⟨_, rfl, bulk_faults_at_gate s _ uninit⟩
  case widen => exact fun _ _ _ _ _ => ⟨_, rfl, bulk_faults_at_gate s _ uninit⟩
  case narrow1 => exact fun _ => ⟨_, rfl, gated_faults_at_gate s _ uninit⟩
  case widen1 => exact fun _ => ⟨_, rfl, gated_faults_at_gate s _ uninit⟩
  case fromint => exact fun _ => ⟨_, rfl, gated_faults_at_gate s _ uninit⟩
  case toint => exact fun _ => ⟨_, rfl, gated_faults_at_gate s _ uninit⟩
  case cenc => exact fun n t r h hr => status_ne_of_answers_or_raises (exec_cenc_cases n s) (by decide) h hr
  case cdec => exact fun v t r h hr => status_ne_of_answers_or_raises (exec_cdec_cases v s) (by decide) h hr

end Sys2Proof.Machine
end

section
/-! NARROW and WIDEN byte for byte, NARROW1 and WIDEN1 (spec/41_float_truncator.md rules R110, R114, R116, R118,
R120; O28, O29, O31, O32, O36): `Narrowed` and `Widened` say what a bulk command leaves in MEM, and the statements are
read off them. -/

namespace Sys2Proof.Machine

/-! ### The scalar commands (R118, R120) -/

/-- A command that only answers does so behind the gate, whichever byte order MODE holds. -/
theorem gated_answers (v : Word) (s : State) (set : s.mode ≠ .uninit) :
    AnsweredWith v s (s.gated fun _ => s.finish v) := by
  rcases s.gated_cases (fun _ => s.finish v) with ⟨uninit, _⟩ | ⟨o, _, he⟩
  · exact absurd uninit set
  · rw [he]
    exact (answeredWith_finish_iff v v s).mpr rfl

/-- Settles O28: the two ends of the gate; the result is the upper half extended with zeros. -/
theorem narrow1AnswersTheUpperHalf : Obligations.Narrow1AnswersTheUpperHalf := by
  refine fun f s => ⟨fun uninit => ⟨_, rfl, gated_faults_at_gate s _ uninit⟩, fun set => ?_⟩
  rw [← half_extended]
  exact ⟨_, rfl, gated_answers (zext (narrow f)) s set⟩

/-- Settles O29: the two ends of the gate. -/
theorem widen1AppendsZeros : Obligations.Widen1AppendsZeros :=
  fun h s => ⟨fun uninit => ⟨_, rfl, gated_faults_at_gate s _ uninit⟩,
    fun set => ⟨_, rfl, gated_answers (widen h) s set⟩⟩

/-! ### The conversions, byte for byte (R42, R110, R114) -/

theorem hiOff_eq_ite (o : ByteOrder) : hiOff o = if o = .bigEndian then 0 else 2 := by cases o <;> rfl

theorem loOff_eq_ite (o : ByteOrder) : loOff o = if o = .bigEndian then 2 else 0 := by cases o <;> rfl

/-- `m'` is `m` after NARROW of `n` elements from `src` to `dst` (R110). -/
structure Narrowed (o : ByteOrder) (src dst n : Nat) (m m' : Memory) : Prop where
  outside : SameOutside dst (dst + 2 * n) m m'
  copied : ∀ i k, i < n → k < 2 → m'.readByte (dst + 2 * i + k) = m.readByte (src + 4 * i + hiOff o + k)

/-- `m'` is `m` after WIDEN of `n` elements from `src` to `dst` (R114). -/
structure Widened (o : ByteOrder) (src dst n : Nat) (m m' : Memory) : Prop where
  outside : SameOutside dst (dst + 4 * n) m m'
  placed : ∀ i k, i < n → k < 2 → m'.readByte (dst + 4 * i + hiOff o + k) = m.readByte (src + 2 * i + k)
  zeroed : ∀ i k, i < n → k < 2 → m'.readByte (dst + 4 * i + loOff o + k) = 0x00#8

theorem narrowElements_narrowed (o : ByteOrder) (src dst n : Nat) (m : Memory)
    (apart : n = 0 ∨ dst + 2 * n ≤ src ∨ src + 4 * n ≤ dst) :
    Narrowed o src dst n m (narrowElements o src dst n m) where
  outside a beyond := by
    rw [narrowElements_readByte o src dst n m apart, if_neg (by omega)]
  copied i k hi hk := by
    have element : (dst + 2 * i + k - dst) / 2 = i := by omega
    have offset : (dst + 2 * i + k - dst) % 2 = k := by omega
    rw [narrowElements_readByte o src dst n m apart, if_pos (by omega), element, offset]

theorem widenElements_widened (o : ByteOrder) (src dst n : Nat) (m : Memory)
    (apart : n = 0 ∨ dst + 4 * n ≤ src ∨ src + 2 * n ≤ dst) :
    Widened o src dst n m (widenElements o src dst n m) where
  outside a beyond := by
    rw [widenElements_readByte o src dst n m apart, if_neg (by omega)]
  placed i k hi hk := by
    have halves := hiOff_cases o
    have element : (dst + 4 * i + hiOff o + k - dst) / 4 = i := by omega
    have offset : (dst + 4 * i + hiOff o + k - dst) % 4 = hiOff o + k := by omega
    rw [widenElements_readByte o src dst n m apart, if_pos (by omega), element, offset, if_pos (by omega),
      Nat.add_sub_cancel_left]
  zeroed i k hi hk := by
    have halves := hiOff_cases o
    have offset : (dst + 4 * i + loOff o + k - dst) % 4 = loOff o + k := by omega
    rw [widenElements_readByte o src dst n m apart, if_pos (by omega), offset, if_neg (by omega)]

/-! ### A bulk command that ends OK -/

section
variable {s t : State} {o : ByteOrder} {ss ds : Nat} {src srcLen dst dstLen count : Word}

theorem not_wroteOnlyMemory_raise (s : State) (c : Cause) : ¬ WroteOnlyMemory s (s.raise c) :=
  fun h => c.code_ne_ok (congrArg Response.status (Option.some.inj (congrArg State.response h)))

theorem WroteOnlyMemory.mode_eq (h : WroteOnlyMemory s t) : t.mode = s.mode :=
  (congrArg State.mode h :)

theorem bulk_of_admitted (order : s.mode = Mode.ofOrder o) (convert : ByteOrder → Memory → Memory)
    (admitted : s.admission ss ds src.toNat srcLen.toNat dst.toNat dstLen.toNat count.toNat = none) :
    s.bulk ss ds src srcLen dst dstLen count convert = (s.withMem (convert o s.mem)).finish 0#32 := by
  rw [State.bulk, s.gated_ofOrder _ o order, admitted]
  rfl

/-- A bulk command that ends OK was admitted: every refusal reports a cause (R51). -/
theorem admitted_of_wroteOnlyMemory (convert : ByteOrder → Memory → Memory)
    (wrote : WroteOnlyMemory s (s.bulk ss ds src srcLen dst dstLen count convert)) :
    s.admission ss ds src.toNat srcLen.toNat dst.toNat dstLen.toNat count.toNat = none := by
  rcases s.bulk_cases ss ds src srcLen dst dstLen count convert with
    ⟨_, he⟩ | ⟨_, _, ⟨c, _, he⟩ | ⟨admitted, _⟩⟩
  · exact absurd (he ▸ wrote) (not_wroteOnlyMemory_raise s _)
  · exact absurd (he ▸ wrote) (not_wroteOnlyMemory_raise s c)
  · exact admitted

/-- An admitted NARROW ends OK and narrows. -/
theorem exec_narrow_of_admitted (order : s.mode = Mode.ofOrder o)
    (admitted : s.admission 4 2 src.toNat srcLen.toNat dst.toNat dstLen.toNat count.toNat = none) :
    ∃ t, exec (.narrow src srcLen dst dstLen count) s = .next t ∧ WroteOnlyMemory s t ∧
      Narrowed o src.toNat dst.toNat count.toNat s.mem t.mem := by
  obtain ⟨_, _, _, apart⟩ := (s.admission_eq_none ..).mp admitted
  exact ⟨_, congrArg Host.Outcome.next (bulk_of_admitted order _ admitted), rfl,
    narrowElements_narrowed o _ _ _ s.mem apart⟩

/-- An admitted WIDEN ends OK and widens. -/
theorem exec_widen_of_admitted (order : s.mode = Mode.ofOrder o)
    (admitted : s.admission 2 4 src.toNat srcLen.toNat dst.toNat dstLen.toNat count.toNat = none) :
    ∃ t, exec (.widen src srcLen dst dstLen count) s = .next t ∧ WroteOnlyMemory s t ∧
      Widened o src.toNat dst.toNat count.toNat s.mem t.mem := by
  obtain ⟨_, _, _, apart⟩ := (s.admission_eq_none ..).mp admitted
  exact ⟨_, congrArg Host.Outcome.next (bulk_of_admitted order _ admitted), rfl,
    widenElements_widened o _ _ _ s.mem apart⟩

/-- A NARROW that ended OK was admitted, and narrowed. -/
theorem narrowed_of_exec (order : s.mode = Mode.ofOrder o)
    (h : exec (.narrow src srcLen dst dstLen count) s = .next t) (wrote : WroteOnlyMemory s t) :
    s.admission 4 2 src.toNat srcLen.toNat dst.toNat dstLen.toNat count.toNat = none ∧
      Narrowed o src.toNat dst.toNat count.toNat s.mem t.mem := by
  have admitted : s.admission 4 2 src.toNat srcLen.toNat dst.toNat dstLen.toNat count.toNat = none :=
    admitted_of_wroteOnlyMemory _ (Host.Outcome.next.inj h ▸ wrote)
  obtain ⟨t', ht', _, narrowed⟩ := exec_narrow_of_admitted order admitted
  obtain rfl : t' = t := Host.Outcome.next.inj (ht'.symm.trans h)
  exact ⟨admitted, narrowed⟩

/-- A WIDEN that ended OK was admitted, and widened. -/
theorem widened_of_exec (order : s.mode = Mode.ofOrder o)
    (h : exec (.widen src srcLen dst dstLen count) s = .next t) (wrote : WroteOnlyMemory s t) :
    s.admission 2 4 src.toNat srcLen.toNat dst.toNat dstLen.toNat count.toNat = none ∧
      Widened o src.toNat dst.toNat count.toNat s.mem t.mem := by
  have admitted : s.admission 2 4 src.toNat srcLen.toNat dst.toNat dstLen.toNat count.toNat = none :=
    admitted_of_wroteOnlyMemory _ (Host.Outcome.next.inj h ▸ wrote)
  obtain ⟨t', ht', _, widened⟩ := exec_widen_of_admitted order admitted
  obtain rfl : t' = t := Host.Outcome.next.inj (ht'.symm.trans h)
  exact ⟨admitted, widened⟩

end

/-- Settles O31: the conditions are those of admission, and an admitted NARROW narrows. -/
theorem narrowCopiesTheSelectedHalves : Obligations.NarrowCopiesTheSelectedHalves := by
  intro src srcLen dst dstLen count s o order hsrcLen hdstLen hsrc hdst hsrcEnd hdstEnd apart
  have admitted := (s.admission_eq_none 4 2 ..).mpr ⟨⟨hsrcLen, hdstLen⟩, ⟨hsrc, hdst⟩, ⟨hsrcEnd, hdstEnd⟩, apart⟩
  obtain ⟨t, he, wrote, narrowed⟩ := exec_narrow_of_admitted order admitted
  rw [← hiOff_eq_ite]
  exact ⟨t, he, wrote, narrowed.outside, narrowed.copied⟩

/-- Settles O32: the conditions are those of admission, and an admitted WIDEN widens. -/
theorem widenPlacesTheHalvesAndZeroFills : Obligations.WidenPlacesTheHalvesAndZeroFills := by
  intro src srcLen dst dstLen count s o order hsrcLen hdstLen hsrc hdst hsrcEnd hdstEnd apart
  have admitted := (s.admission_eq_none 2 4 ..).mpr ⟨⟨hsrcLen, hdstLen⟩, ⟨hsrc, hdst⟩, ⟨hsrcEnd, hdstEnd⟩, apart⟩
  obtain ⟨t, he, wrote, widened⟩ := exec_widen_of_admitted order admitted
  rw [← hiOff_eq_ite, ← loOff_eq_ite]
  exact ⟨t, he, wrote, widened.outside, fun i k hi hk => ⟨widened.placed i k hi hk, widened.zeroed i k hi hk⟩⟩

/-! ### The bulk round trip (R116) -/

section
variable {o : ByteOrder} {x y z n : Nat} {m m' m'' : Memory}

/-- NARROW then WIDEN restores the selected halves. -/
theorem Narrowed.widened (first : Narrowed o x y n m m') (second : Widened o y z n m' m'') (i k : Nat)
    (hi : i < n) (hk : k < 2) :
    m''.readByte (z + 4 * i + hiOff o + k) = m.readByte (x + 4 * i + hiOff o + k) :=
  (second.placed i k hi hk).trans (first.copied i k hi hk)

/-- WIDEN then NARROW restores every byte. -/
theorem Widened.narrowed (first : Widened o x y n m m') (second : Narrowed o y z n m' m'') (i k : Nat)
    (hi : i < n) (hk : k < 2) : m''.readByte (z + 2 * i + k) = m.readByte (x + 2 * i + k) :=
  (second.copied i k hi hk).trans (first.placed i k hi hk)

/-- WIDEN leaves its source as it was when the bytes it accesses are apart. -/
theorem Widened.source (h : Widened o x y n m m') (apart : n = 0 ∨ y + 4 * n ≤ x ∨ x + 2 * n ≤ y) (i k : Nat)
    (hi : i < n) (hk : k < 2) : m'.readByte (x + 2 * i + k) = m.readByte (x + 2 * i + k) :=
  h.outside _ (by omega)

end

/-- Settles O36: both commands work in the order MODE of `s` holds, which the first of them keeps; admission keeps
the source of the WIDEN apart from what it writes. -/
theorem bulkRoundTripClearsTheLowHalves : Obligations.BulkRoundTripClearsTheLowHalves := by
  intro x xLen y yLen yLen' z zLen zLen' y' y'Len n o s t u order
  constructor
  · intro ht wrote hu wrote' i k hi hk
    obtain ⟨_, narrowed⟩ := narrowed_of_exec order ht wrote
    obtain ⟨_, widened⟩ := widened_of_exec (wrote.mode_eq.trans order) hu wrote'
    exact ⟨narrowed.widened widened i k hi hk, widened.zeroed i k hi hk⟩
  · intro ht wrote hu wrote' i k hi hk
    obtain ⟨admitted, widened⟩ := widened_of_exec order ht wrote
    obtain ⟨_, narrowed⟩ := narrowed_of_exec (wrote.mode_eq.trans order) hu wrote'
    obtain ⟨_, _, _, apart⟩ := (s.admission_eq_none ..).mp admitted
    exact ⟨widened.narrowed narrowed i k hi hk, widened.source apart i k hi hk⟩

end Sys2Proof.Machine
end

section
/-! Float32 patterns by their value (spec/00_scope.md rules R10, R11): the fields, the bounds an exponent field puts
on the magnitude, and the gap between neighbouring magnitudes. -/

namespace Sys2Proof.Machine

/-! ### The fields of a 32-bit pattern (R27) -/

@[simp] theorem f32Sign_f32Pack (s : Bool) (e : BitVec 8) (m : BitVec 23) : f32Sign (f32Pack s e m) = s := by
  simp only [f32Sign, f32Pack, BitVec.getLsbD_append]
  simp

@[simp] theorem f32Exp_f32Pack (s : Bool) (e : BitVec 8) (m : BitVec 23) : f32Exp (f32Pack s e m) = e :=
  (BitVec.extractLsb'_append_eq_of_le (Nat.le_refl 23)).trans BitVec.extractLsb'_append_eq_right

@[simp] theorem f32Frac_f32Pack (s : Bool) (e : BitVec 8) (m : BitVec 23) : f32Frac (f32Pack s e m) = m :=
  BitVec.extractLsb'_append_eq_right

/-- A pattern is packed from its own fields. -/
theorem f32Pack_fields (f : Word) : f32Pack (f32Sign f) (f32Exp f) (f32Frac f) = f := by
  unfold f32Pack
  rw [append_eq_iff_slices, append_eq_iff_slices, extractLsb'_extractLsb' f 23 0 9 8 (by decide),
    extractLsb'_extractLsb' f 23 8 9 1 (by decide)]
  refine ⟨rfl, rfl, ?_⟩
  ext i hi
  simp [f32Sign, show i = 0 by omega]

theorem f32_ext {f g : Word} (sign : f32Sign f = f32Sign g) (exp : f32Exp f = f32Exp g)
    (frac : f32Frac f = f32Frac g) : f = g := by
  rw [← f32Pack_fields f, sign, exp, frac, f32Pack_fields]

@[simp] theorem f32Sign_widen (h : Half) : f32Sign (widen h) = halfSign h := by
  simp only [f32Sign, widen, halfSign, BitVec.getLsbD_append]
  simp

/-- The lowest bit of a pattern is the parity of its mantissa. -/
theorem getLsbD_zero_eq (f : Word) : f.getLsbD 0 = decide ((f32Frac f).toNat % 2 = 1) := by
  have same : (f32Frac f).getLsbD 0 = f.getLsbD 0 := by simp [f32Frac]
  rw [← same, ← BitVec.testBit_toNat, Nat.testBit_zero]

/-! ### The magnitude and the exponent field (R11) -/

theorem f32Magnitude_of_exp_zero {f : Word} (he : f32Exp f = 0#8) : f32Magnitude f = (f32Frac f).toNat := if_pos he

theorem f32Magnitude_of_exp_ne_zero {f : Word} (he : f32Exp f ≠ 0#8) :
    f32Magnitude f = (2 ^ 23 + (f32Frac f).toNat) * 2 ^ ((f32Exp f).toNat - 1) := if_neg he

theorem toNat_f32Exp_pos {f : Word} (he : f32Exp f ≠ 0#8) : 1 ≤ (f32Exp f).toNat :=
  Nat.one_le_iff_ne_zero.mpr fun h => he (BitVec.eq_of_toNat_eq h)

theorem f32Exp_ne_zero_of_lt {f : Word} {n : Nat} (h : n < (f32Exp f).toNat) : f32Exp f ≠ 0#8 := by
  intro he
  rw [he] at h
  exact Nat.not_lt_zero _ h

theorem f32Magnitude_lt (f : Word) : f32Magnitude f < 2 ^ (23 + (f32Exp f).toNat) := by
  have frac := (f32Frac f).isLt
  by_cases he : f32Exp f = 0#8
  · rw [f32Magnitude_of_exp_zero he, he]
    exact frac
  · have pos := toNat_f32Exp_pos he
    rw [f32Magnitude_of_exp_ne_zero he]
    calc (2 ^ 23 + (f32Frac f).toNat) * 2 ^ ((f32Exp f).toNat - 1)
        < 2 ^ 24 * 2 ^ ((f32Exp f).toNat - 1) := Nat.mul_lt_mul_of_pos_right (by omega) (Nat.two_pow_pos _)
      _ = 2 ^ (23 + (f32Exp f).toNat) := by rw [← Nat.pow_add]; congr 1; omega

theorem le_f32Magnitude {f : Word} (he : f32Exp f ≠ 0#8) : 2 ^ (22 + (f32Exp f).toNat) ≤ f32Magnitude f := by
  have pos := toNat_f32Exp_pos he
  rw [f32Magnitude_of_exp_ne_zero he]
  calc 2 ^ (22 + (f32Exp f).toNat) = 2 ^ 23 * 2 ^ ((f32Exp f).toNat - 1) := by
        rw [← Nat.pow_add]; congr 1; omega
    _ ≤ _ := Nat.mul_le_mul_right _ (Nat.le_add_right _ _)

/-- A larger exponent field is a larger magnitude. -/
theorem f32Magnitude_lt_of_exp_lt {f g : Word} (h : (f32Exp f).toNat < (f32Exp g).toNat) :
    f32Magnitude f < f32Magnitude g := by
  calc f32Magnitude f < 2 ^ (23 + (f32Exp f).toNat) := f32Magnitude_lt f
    _ ≤ 2 ^ (22 + (f32Exp g).toNat) := Nat.pow_le_pow_right (by decide) (by omega)
    _ ≤ f32Magnitude g := le_f32Magnitude (f32Exp_ne_zero_of_lt h)

/-- Exponent and mantissa are determined by the magnitude. -/
theorem f32Magnitude_eq_iff (f g : Word) :
    f32Magnitude f = f32Magnitude g ↔ f32Exp f = f32Exp g ∧ f32Frac f = f32Frac g := by
  constructor
  · intro h
    have exp : f32Exp f = f32Exp g := by
      refine BitVec.eq_of_toNat_eq (Nat.le_antisymm (Nat.le_of_not_lt fun lt => ?_) (Nat.le_of_not_lt fun lt => ?_))
      · exact (f32Magnitude_lt_of_exp_lt lt).ne' h
      · exact (f32Magnitude_lt_of_exp_lt lt).ne h
    refine ⟨exp, BitVec.eq_of_toNat_eq ?_⟩
    by_cases he : f32Exp g = 0#8
    · rwa [f32Magnitude_of_exp_zero (exp.trans he), f32Magnitude_of_exp_zero he] at h
    · rw [f32Magnitude_of_exp_ne_zero (exp ▸ he), f32Magnitude_of_exp_ne_zero he, exp] at h
      exact Nat.add_left_cancel (Nat.eq_of_mul_eq_mul_right (Nat.two_pow_pos _) h)
  · rintro ⟨exp, frac⟩
    rw [f32Magnitude, f32Magnitude, exp, frac]

theorem f32Exp_ne_zero_of_le {f : Word} (h : 2 ^ 23 ≤ f32Magnitude f) : f32Exp f ≠ 0#8 := by
  intro he
  have := f32Magnitude_lt f
  rw [he] at this
  exact Nat.not_lt.mpr h this

theorem f32Exp_ne_max_of_lt {f : Word} (h : f32Magnitude f < 2 ^ 200) : f32Exp f ≠ 255#8 := by
  intro he
  have lower := le_f32Magnitude (f := f) (by rw [he]; decide)
  rw [he] at lower
  exact Nat.not_lt.mpr ((Nat.pow_le_pow_right (by decide) (by decide)).trans lower) h

/-- No magnitude lies strictly between two neighbouring multiples of `2^u` from `2^(u+23)` on: an exponent field
that allows so large a magnitude has a unit of at least `2^u`. -/
theorem f32Magnitude_not_between (g : Word) {q u : Nat} (normal : 2 ^ 23 ≤ q) :
    f32Magnitude g ≤ q * 2 ^ u ∨ (q + 1) * 2 ^ u ≤ f32Magnitude g := by
  rcases Nat.lt_or_ge u (f32Exp g).toNat with coarse | fine
  · obtain ⟨a, ha⟩ : 2 ^ u ∣ f32Magnitude g := by
      rw [f32Magnitude_of_exp_ne_zero (f32Exp_ne_zero_of_lt coarse)]
      exact Dvd.dvd.mul_left (Nat.pow_dvd_pow 2 (by omega)) _
    rw [ha, Nat.mul_comm (2 ^ u) a]
    rcases Nat.lt_or_ge q a with above | below
    · exact .inr (Nat.mul_le_mul_right _ above)
    · exact .inl (Nat.mul_le_mul_right _ below)
  · refine .inl (Nat.le_of_lt ?_)
    calc f32Magnitude g < 2 ^ (23 + (f32Exp g).toNat) := f32Magnitude_lt g
      _ ≤ 2 ^ (23 + u) := Nat.pow_le_pow_right (by decide) (by omega)
      _ = 2 ^ 23 * 2 ^ u := Nat.pow_add ..
      _ ≤ q * 2 ^ u := Nat.mul_le_mul_right _ normal

/-! ### The value (R11) -/

theorem f32Value_of_sign {f : Word} (h : f32Sign f = true) : f32Value f = -(f32Magnitude f : Int) := if_pos h

theorem f32Value_of_not_sign {f : Word} (h : f32Sign f = false) : f32Value f = f32Magnitude f := by
  simp [f32Value, h]

theorem natAbs_f32Value (f : Word) : (f32Value f).natAbs = f32Magnitude f := by
  unfold f32Value
  split <;> simp

/-- Only the two zeros have a value in common. -/
theorem eq_of_f32Value_eq {f g : Word} (h : f32Value f = f32Value g) (nonzero : f32Value f ≠ 0) : f = g := by
  have magnitude : f32Magnitude f = f32Magnitude g := by rw [← natAbs_f32Value, h, natAbs_f32Value]
  obtain ⟨exp, frac⟩ := (f32Magnitude_eq_iff f g).mp magnitude
  refine f32_ext ?_ exp frac
  cases hf : f32Sign f <;> cases hg : f32Sign g
  case false.false | true.true => rfl
  case false.true =>
    rw [f32Value_of_not_sign hf, f32Value_of_sign hg] at h
    rw [f32Value_of_not_sign hf] at nonzero
    omega
  case true.false =>
    rw [f32Value_of_sign hf, f32Value_of_not_sign hg] at h
    rw [f32Value_of_sign hf] at nonzero
    omega

/-- The two zeros are the patterns of value 0. -/
theorem f32Value_eq_zero_iff (f : Word) : f32Value f = 0 ↔ f = 0x00000000#32 ∨ f = 0x80000000#32 := by
  constructor
  · intro h
    have magnitude : f32Magnitude f = f32Magnitude 0x00000000#32 := by
      rw [← natAbs_f32Value, h]
      rfl
    obtain ⟨exp, frac⟩ := (f32Magnitude_eq_iff _ _).mp magnitude
    cases sign : f32Sign f
    case false => exact .inl (f32_ext sign exp frac)
    case true => exact .inr (f32_ext sign exp frac)
  · rintro (rfl | rfl)
    · rfl
    · rfl

/-! ### Patterns that end in sixteen zeros (R111, R113) -/

/-- R115: narrowing inverts widening. -/
@[simp] theorem narrow_widen (h : Half) : narrow (widen h) = h := BitVec.extractLsb'_append_eq_left

/-- Widening gives a pattern back exactly when the mantissa bits that narrowing dropped are zero. -/
theorem widen_narrow_eq_iff (f : Word) : widen (narrow f) = f ↔ (f32Frac f).toNat % 2 ^ 16 = 0 := by
  unfold widen narrow
  rw [append_eq_iff_slices, ← BitVec.toNat_inj, f32Frac, BitVec.extractLsb'_toNat, BitVec.extractLsb'_toNat]
  simp only [BitVec.toNat_ofNat, Nat.shiftRight_zero, Nat.zero_mod, and_true]
  rw [Nat.mod_mod_of_dvd _ (by decide), eq_comm]

/-- Eight significant bits, in the integers, fit the mantissa that narrowing keeps. -/
theorem widen_narrow_of_eight_bits {f : Word} {k j : Nat} (h : f32Magnitude f = k * 2 ^ (j + 149)) (hk : k < 2 ^ 8) :
    widen (narrow f) = f := by
  rw [widen_narrow_eq_iff]
  by_cases he : f32Exp f = 0#8
  · rw [f32Magnitude_of_exp_zero he] at h
    rw [h, show j + 149 = 16 + (j + 133) by omega, Nat.pow_add, Nat.mul_left_comm]
    exact Nat.mul_mod_right ..
  · have pos := toNat_f32Exp_pos he
    have unit : (f32Exp f).toNat + 15 ≤ j + 149 := by
      have lt : 2 ^ (22 + (f32Exp f).toNat) < 2 ^ (8 + (j + 149)) :=
        calc 2 ^ (22 + (f32Exp f).toNat) ≤ k * 2 ^ (j + 149) := h ▸ le_f32Magnitude he
          _ < 2 ^ 8 * 2 ^ (j + 149) := Nat.mul_lt_mul_of_pos_right hk (Nat.two_pow_pos _)
          _ = 2 ^ (8 + (j + 149)) := (Nat.pow_add ..).symm
      have := (Nat.pow_lt_pow_iff_right (by decide)).mp lt
      omega
    have divides : 2 ^ 16 * 2 ^ ((f32Exp f).toNat - 1) ∣
        (2 ^ 23 + (f32Frac f).toNat) * 2 ^ ((f32Exp f).toNat - 1) := by
      rw [← f32Magnitude_of_exp_ne_zero he, h, ← Nat.pow_add]
      exact Dvd.dvd.mul_left (Nat.pow_dvd_pow 2 (by omega)) k
    have := Nat.dvd_of_mul_dvd_mul_right (Nat.two_pow_pos _) divides
    omega

end Sys2Proof.Machine
end

section
/-! `i2f`, the integer-to-Float32 step (spec/42_int_wrappers.md rule R141; O38). `RoundsTo` says in units of 2^(-149)
what the rounding of a magnitude is, and the statement is read off it. -/

namespace Sys2Proof.Machine

/-! ### A normal pattern by its significand -/

/-- The pattern with exponent field `p + 127` whose significand, leading bit included, is `k`. -/
def normalPattern (s : Bool) (p k : Nat) : Word :=
  f32Pack s (BitVec.ofNat 8 (p + 127)) (BitVec.ofNat 23 (k - 2 ^ 23))

@[simp] theorem f32Sign_normalPattern (s : Bool) (p k : Nat) : f32Sign (normalPattern s p k) = s := f32Sign_f32Pack ..

section
variable {k p : Nat} (lower : 2 ^ 23 ≤ k) (upper : k < 2 ^ 24)
include lower upper

theorem toNat_f32Frac_normalPattern (s : Bool) : (f32Frac (normalPattern s p k)).toNat = k - 2 ^ 23 := by
  rw [normalPattern, f32Frac_f32Pack, BitVec.toNat_ofNat, Nat.mod_eq_of_lt (by omega)]

theorem f32Magnitude_normalPattern (s : Bool) (hp : p ≤ 127) :
    f32Magnitude (normalPattern s p k) = k * 2 ^ (p + 126) := by
  have exp : (f32Exp (normalPattern s p k)).toNat = p + 127 := by
    rw [normalPattern, f32Exp_f32Pack, BitVec.toNat_ofNat, Nat.mod_eq_of_lt (by omega)]
  have he : f32Exp (normalPattern s p k) ≠ 0#8 := by
    intro he
    rw [he] at exp
    exact absurd exp (Nat.succ_ne_zero _).symm
  rw [f32Magnitude_of_exp_ne_zero he, toNat_f32Frac_normalPattern lower upper, exp, Nat.add_sub_cancel' lower]
  rfl

theorem getLsbD_zero_normalPattern (s : Bool) : (normalPattern s p k).getLsbD 0 = decide (k % 2 = 1) := by
  rw [getLsbD_zero_eq, toNat_f32Frac_normalPattern lower upper, decide_eq_decide]
  omega

end

/-! ### What a rounding does -/

/-- `f` is a rounding of the magnitude `x`, which lies from the `q`-th to the next multiple of `2^u`, the unit of the
last bit: it takes the `c`-th of them, one of the two, and an exact `x` as it is. -/
structure RoundsTo (rnd : Rounding) (x : Nat) (f : Word) (q u c : Nat) : Prop where
  normal : 2 ^ 23 ≤ q ∧ q < 2 ^ 24
  unit : u ≤ 157
  below : q * 2 ^ u ≤ x
  above : x < (q + 1) * 2 ^ u
  neighbour : c = q ∨ c = q + 1
  magnitude : f32Magnitude f = c * 2 ^ u
  parity : f.getLsbD 0 = decide (c % 2 = 1)
  keepsExact : x = q * 2 ^ u → c = q
  nearest : rnd = .nearestTiesToEven → (c = q + 1 ↔
    q * 2 ^ u + (q + 1) * 2 ^ u < 2 * x ∨ q * 2 ^ u + (q + 1) * 2 ^ u = 2 * x ∧ q % 2 = 1)

theorem roundsUp_exact (rnd : Rounding) (neg : Bool) (q sh : Nat) : roundsUp rnd neg q 0 sh = false := by
  cases rnd with
  | nearestTiesToEven =>
    have := Nat.two_pow_pos (sh - 1)
    simp [roundsUp, this.ne]
  | other => rfl

theorem roundsUp_nearest_iff (neg : Bool) (q r sh : Nat) :
    roundsUp .nearestTiesToEven neg q r sh = true ↔ 2 ^ (sh - 1) < r ∨ r = 2 ^ (sh - 1) ∧ q % 2 = 1 := by
  simp [roundsUp]

/-- The kept bits of a magnitude, incremented as the rounding says. -/
def roundedBits (rnd : Rounding) (neg : Bool) (m sh : Nat) : Nat :=
  if roundsUp rnd neg (m / 2 ^ sh) (m - m / 2 ^ sh * 2 ^ sh) sh then m / 2 ^ sh + 1 else m / 2 ^ sh

theorem roundedBits_neighbour (rnd : Rounding) (neg : Bool) (m sh : Nat) :
    roundedBits rnd neg m sh = m / 2 ^ sh ∨ roundedBits rnd neg m sh = m / 2 ^ sh + 1 := by
  unfold roundedBits
  split
  · exact .inr rfl
  · exact .inl rfl

theorem roundedBits_exact (rnd : Rounding) (neg : Bool) {m sh : Nat} (exact : m = m / 2 ^ sh * 2 ^ sh) :
    roundedBits rnd neg m sh = m / 2 ^ sh := by
  rw [roundedBits, ← exact, Nat.sub_self, roundsUp_exact]
  rfl

/-- The default rounding goes up beyond the midpoint of the two neighbours, and at it from an odd one. -/
theorem roundedBits_nearest_iff (neg : Bool) {m sh : Nat} (dropped : 1 ≤ sh) :
    roundedBits .nearestTiesToEven neg m sh = m / 2 ^ sh + 1 ↔
      m / 2 ^ sh * 2 ^ sh + (m / 2 ^ sh + 1) * 2 ^ sh < 2 * m ∨
        m / 2 ^ sh * 2 ^ sh + (m / 2 ^ sh + 1) * 2 ^ sh = 2 * m ∧ m / 2 ^ sh % 2 = 1 := by
  have half : 2 ^ sh = 2 * 2 ^ (sh - 1) := by rw [← pow_succ', Nat.sub_add_cancel dropped]
  have kept := Nat.div_mul_le_self m (2 ^ sh)
  have up : roundedBits .nearestTiesToEven neg m sh = m / 2 ^ sh + 1 ↔
      roundsUp .nearestTiesToEven neg (m / 2 ^ sh) (m - m / 2 ^ sh * 2 ^ sh) sh = true := by
    simp [roundedBits]
  rw [up, roundsUp_nearest_iff, Nat.add_mul]
  omega

/-- The pattern of a rounded significand, which may have overflowed into the next power of two. -/
def carriedPattern (s : Bool) (p c : Nat) : Word :=
  if c = 2 ^ 24 then normalPattern s (p + 1) (2 ^ 23) else normalPattern s p c

@[simp] theorem f32Sign_carriedPattern (s : Bool) (p c : Nat) : f32Sign (carriedPattern s p c) = s := by
  unfold carriedPattern
  split <;> exact f32Sign_normalPattern ..

theorem f32Magnitude_carriedPattern (s : Bool) {p c : Nat} (lower : 2 ^ 23 ≤ c) (upper : c ≤ 2 ^ 24)
    (hp : p < 127) :
    f32Magnitude (carriedPattern s p c) = c * 2 ^ (p + 126) := by
  unfold carriedPattern
  split
  next carry =>
    rw [f32Magnitude_normalPattern (Nat.le_refl _) (by decide) s hp, carry, ← Nat.pow_add, ← Nat.pow_add]
    congr 1
    omega
  next fits => exact f32Magnitude_normalPattern lower (Nat.lt_of_le_of_ne upper fits) s hp.le

theorem getLsbD_zero_carriedPattern (s : Bool) (p : Nat) {c : Nat} (lower : 2 ^ 23 ≤ c) (upper : c ≤ 2 ^ 24) :
    (carriedPattern s p c).getLsbD 0 = decide (c % 2 = 1) := by
  unfold carriedPattern
  split
  next carry => rw [getLsbD_zero_normalPattern (Nat.le_refl _) (by decide), carry]; rfl
  next fits => exact getLsbD_zero_normalPattern lower (Nat.lt_of_le_of_ne upper fits) s

/-! ### `i2f` as a rounding -/

theorem i2f_zero (rnd : Rounding) : i2f rnd 0 = 0x00000000#32 := rfl

/-- R141, at most 24 significant bits: the magnitude shifted up to the significand. -/
theorem i2f_of_short (rnd : Rounding) {i : Int} (h0 : i ≠ 0) (short : hsb i.natAbs ≤ 23) :
    i2f rnd i = normalPattern (decide (i < 0)) (hsb i.natAbs) (i.natAbs * 2 ^ (23 - hsb i.natAbs)) := by
  have leading : 2 ^ hsb i.natAbs * 2 ^ (23 - hsb i.natAbs) = 2 ^ 23 := by
    rw [← Nat.pow_add, Nat.add_sub_cancel' short]
  rw [normalPattern, ← leading, ← Nat.sub_mul]
  exact (if_neg h0).trans (if_pos short)

/-- R141, more than 24 significant bits: the rounded bits. -/
theorem i2f_of_long (rnd : Rounding) {i : Int} (h0 : i ≠ 0) (long : 23 < hsb i.natAbs) :
    i2f rnd i = carriedPattern (decide (i < 0)) (hsb i.natAbs)
      (roundedBits rnd (decide (i < 0)) i.natAbs (hsb i.natAbs - 23)) :=
  (if_neg h0).trans (if_neg (Nat.not_le.mpr long))

/-- The sign of the pattern is that of the integer. -/
theorem f32Sign_i2f (rnd : Rounding) (i : Int) : f32Sign (i2f rnd i) = decide (i < 0) := by
  by_cases h0 : i = 0
  · rw [h0, i2f_zero]
    rfl
  · rcases Nat.lt_or_ge 23 (hsb i.natAbs) with long | short
    · rw [i2f_of_long rnd h0 long, f32Sign_carriedPattern]
    · rw [i2f_of_short rnd h0 short, f32Sign_normalPattern]

/-- Up to 24 significant bits nothing is rounded. -/
theorem roundsTo_of_short (rnd : Rounding) {i : Int} (h0 : i ≠ 0) (short : hsb i.natAbs ≤ 23) :
    ∃ q u c, RoundsTo rnd (i.natAbs * 2 ^ 149) (i2f rnd i) q u c := by
  obtain ⟨lower, upper⟩ := (hsb_eq_iff i.natAbs _ (by omega)).mp rfl
  have normal : 2 ^ 23 ≤ i.natAbs * 2 ^ (23 - hsb i.natAbs) ∧ i.natAbs * 2 ^ (23 - hsb i.natAbs) < 2 ^ 24 := by
    constructor
    · calc 2 ^ 23 = 2 ^ hsb i.natAbs * 2 ^ (23 - hsb i.natAbs) := by rw [← Nat.pow_add, Nat.add_sub_cancel' short]
        _ ≤ _ := Nat.mul_le_mul_right _ lower
    · calc i.natAbs * 2 ^ (23 - hsb i.natAbs) < 2 ^ (hsb i.natAbs + 1) * 2 ^ (23 - hsb i.natAbs) :=
            Nat.mul_lt_mul_of_pos_right upper (Nat.two_pow_pos _)
        _ = 2 ^ 24 := by rw [← Nat.pow_add]; congr 1; omega
  have exact : i.natAbs * 2 ^ 149 = i.natAbs * 2 ^ (23 - hsb i.natAbs) * 2 ^ (hsb i.natAbs + 126) := by
    rw [Nat.mul_assoc, ← Nat.pow_add]; congr 2; omega
  have unit := Nat.two_pow_pos (hsb i.natAbs + 126)
  refine ⟨i.natAbs * 2 ^ (23 - hsb i.natAbs), hsb i.natAbs + 126, i.natAbs * 2 ^ (23 - hsb i.natAbs), ?_⟩
  rw [exact, i2f_of_short rnd h0 short]
  exact
    { normal := normal
      unit := by omega
      below := Nat.le_refl _
      above := Nat.mul_lt_mul_of_pos_right (Nat.lt_succ_self _) unit
      neighbour := .inl rfl
      magnitude := f32Magnitude_normalPattern normal.1 normal.2 _ (by omega)
      parity := getLsbD_zero_normalPattern normal.1 normal.2 _
      keepsExact := fun _ => rfl
      nearest := fun _ => by
        rw [Nat.add_mul]
        omega }

/-- Beyond 24 significant bits `sh` of them are dropped, and the unit of the last kept bit is `2^sh`. -/
theorem roundsTo_of_long (rnd : Rounding) {i : Int} (h31 : i.natAbs ≤ 2 ^ 31) (long : 23 < hsb i.natAbs) :
    ∃ q u c, RoundsTo rnd (i.natAbs * 2 ^ 149) (i2f rnd i) q u c := by
  have h0 : i ≠ 0 := by
    rintro rfl
    exact absurd long (by decide)
  obtain ⟨lower, upper⟩ := (hsb_eq_iff i.natAbs _ (by omega)).mp rfl
  have small : hsb i.natAbs ≤ 31 := (Nat.pow_le_pow_iff_right (by decide)).mp (lower.trans h31)
  obtain ⟨sh, hsh⟩ : ∃ sh, hsb i.natAbs = sh + 23 := ⟨hsb i.natAbs - 23, by omega⟩
  rw [hsh] at lower upper
  have pattern := i2f_of_long rnd h0 long
  rw [hsh, Nat.add_sub_cancel] at pattern
  have positive := Nat.two_pow_pos sh
  have normal : 2 ^ 23 ≤ i.natAbs / 2 ^ sh ∧ i.natAbs / 2 ^ sh < 2 ^ 24 := by
    rw [Nat.le_div_iff_mul_le positive, Nat.div_lt_iff_lt_mul positive, ← Nat.pow_add, ← Nat.pow_add]
    exact ⟨Nat.add_comm 23 sh ▸ lower, Nat.add_comm 24 sh ▸ upper⟩
  have neighbour := roundedBits_neighbour rnd (decide (i < 0)) i.natAbs sh
  have unit : ∀ a : Nat, a * 2 ^ (sh + 149) = a * 2 ^ sh * 2 ^ 149 := fun a => by rw [Nat.pow_add, Nat.mul_assoc]
  refine ⟨i.natAbs / 2 ^ sh, sh + 149, roundedBits rnd (decide (i < 0)) i.natAbs sh, ?_⟩
  rw [pattern]
  exact
    { normal := normal
      unit := by omega
      below := by
        rw [unit]
        exact Nat.mul_le_mul_right _ (Nat.div_mul_le_self _ _)
      above := by
        rw [unit]
        exact Nat.mul_lt_mul_of_pos_right ((Nat.div_lt_iff_lt_mul positive).mp (Nat.lt_succ_self _)) (by decide)
      neighbour := neighbour
      magnitude := f32Magnitude_carriedPattern _ (by omega) (by omega) (by omega)
      parity := getLsbD_zero_carriedPattern _ _ (by omega) (by omega)
      keepsExact := fun exact => by
        rw [unit] at exact
        exact roundedBits_exact rnd _ (Nat.eq_of_mul_eq_mul_right (by decide) exact)
      nearest := by
        rintro rfl
        rw [unit, unit, roundedBits_nearest_iff _ (by omega)]
        omega }

/-- `i2f` rounds every nonzero integer of 32 bits. -/
theorem roundsTo_i2f (rnd : Rounding) {i : Int} (h0 : i ≠ 0) (h31 : i.natAbs ≤ 2 ^ 31) :
    ∃ q u c, RoundsTo rnd (i.natAbs * 2 ^ 149) (i2f rnd i) q u c := by
  rcases Nat.lt_or_ge 23 (hsb i.natAbs) with long | short
  · exact roundsTo_of_long rnd h31 long
  · exact roundsTo_of_short rnd h0 short

/-! ### What follows from a rounding -/

section
variable {rnd : Rounding} {x q u c : Nat} {f : Word} (h : RoundsTo rnd x f q u c)
include h

theorem RoundsTo.exp_ne_zero : f32Exp f ≠ 0#8 := by
  refine f32Exp_ne_zero_of_le ?_
  rw [h.magnitude]
  calc 2 ^ 23 ≤ c := by
        have := h.normal
        have := h.neighbour
        omega
    _ ≤ c * 2 ^ u := Nat.le_mul_of_pos_right _ (Nat.two_pow_pos _)

theorem RoundsTo.exp_ne_max : f32Exp f ≠ 255#8 := by
  refine f32Exp_ne_max_of_lt ?_
  rw [h.magnitude]
  calc c * 2 ^ u ≤ 2 ^ 24 * 2 ^ 157 :=
        Nat.mul_le_mul (by have := h.normal; have := h.neighbour; omega) (Nat.pow_le_pow_right (by decide) h.unit)
    _ < 2 ^ 200 := by rw [← Nat.pow_add]; exact Nat.pow_lt_pow_right (by decide) (by decide)

/-- At most 24 significant bits, in the integers, are a multiple of the unit: the rounding is exact. -/
theorem RoundsTo.magnitude_eq_of_significant {k j : Nat} (hx : x = k * 2 ^ (j + 149)) (hk : k < 2 ^ 24) :
    f32Magnitude f = x := by
  have unit : u ≤ j + 149 := by
    have lt : 2 ^ (23 + u) < 2 ^ (24 + (j + 149)) :=
      calc 2 ^ (23 + u) = 2 ^ 23 * 2 ^ u := Nat.pow_add ..
        _ ≤ q * 2 ^ u := Nat.mul_le_mul_right _ h.normal.1
        _ ≤ k * 2 ^ (j + 149) := h.below.trans hx.le
        _ < 2 ^ 24 * 2 ^ (j + 149) := Nat.mul_lt_mul_of_pos_right hk (Nat.two_pow_pos _)
        _ = 2 ^ (24 + (j + 149)) := (Nat.pow_add ..).symm
    have := (Nat.pow_lt_pow_iff_right (by decide)).mp lt
    omega
  obtain ⟨a, ha⟩ : 2 ^ u ∣ x := hx ▸ Dvd.dvd.mul_left (Nat.pow_dvd_pow 2 unit) k
  have below := h.below
  have above := h.above
  rw [ha, Nat.mul_comm (2 ^ u)] at below above
  have same : a = q := Nat.le_antisymm (Nat.le_of_lt_succ (Nat.lt_of_mul_lt_mul_right above))
    (Nat.le_of_mul_le_mul_right below (Nat.two_pow_pos _))
  have exact : x = q * 2 ^ u := by rw [ha, same, Nat.mul_comm]
  rw [h.magnitude, h.keepsExact exact, exact]

end

/-- No other magnitude is nearer, and one that is as near stands beside an even pattern. -/
theorem RoundsTo.nearest_magnitude {x q u c : Nat} {f : Word} (h : RoundsTo .nearestTiesToEven x f q u c) (g : Word) :
    |(f32Magnitude f : Int) - x| ≤ |(f32Magnitude g : Int) - x| ∧
      (|(f32Magnitude f : Int) - x| = |(f32Magnitude g : Int) - x| →
        f32Magnitude f = f32Magnitude g ∨ f.getLsbD 0 = false) := by
  have below := h.below
  have above := h.above
  have nearest := h.nearest rfl
  have next : (q + 1) * 2 ^ u = q * 2 ^ u + 2 ^ u := by rw [Nat.add_mul, Nat.one_mul]
  rw [Int.abs_eq_natAbs, Int.abs_eq_natAbs, h.parity, h.magnitude, decide_eq_false_iff_not]
  rcases f32Magnitude_not_between g h.normal.1 (u := u) with low | high
  · rcases h.neighbour with rfl | rfl
    · omega
    · omega
  · rcases h.neighbour with rfl | rfl
    · omega
    · omega

/-! ### The value of `i2f` -/

/-- R140, the corner case (f): the exponent field is never 255. -/
theorem f32Exp_i2f_ne_max (rnd : Rounding) {i : Int} (h31 : i.natAbs ≤ 2 ^ 31) : f32Exp (i2f rnd i) ≠ 255#8 := by
  by_cases h0 : i = 0
  · rw [h0, i2f_zero]
    decide
  · obtain ⟨q, u, c, rounds⟩ := roundsTo_i2f rnd h0 h31
    exact rounds.exp_ne_max

/-- R140, the corner case (f): the exponent field is 0 for the integer 0 alone. -/
theorem f32Exp_i2f_eq_zero_iff (rnd : Rounding) {i : Int} (h31 : i.natAbs ≤ 2 ^ 31) :
    f32Exp (i2f rnd i) = 0#8 ↔ i = 0 := by
  by_cases h0 : i = 0
  · rw [h0, i2f_zero]
    decide
  · obtain ⟨q, u, c, rounds⟩ := roundsTo_i2f rnd h0 h31
    exact iff_of_false rounds.exp_ne_zero h0

/-- An integer of at most 24 significant bits is the value of its pattern, under every rounding. -/
theorem f32Value_i2f_of_significant (rnd : Rounding) {i : Int} {k j : Nat} (h31 : i.natAbs ≤ 2 ^ 31)
    (hi : i.natAbs = k * 2 ^ j) (hk : k < 2 ^ 24) : f32Value (i2f rnd i) = i * 2 ^ 149 := by
  by_cases h0 : i = 0
  · rw [h0, i2f_zero]
    rfl
  · obtain ⟨q, u, c, rounds⟩ := roundsTo_i2f rnd h0 h31
    have magnitude := rounds.magnitude_eq_of_significant (k := k) (j := j) (by rw [hi, Nat.pow_add, Nat.mul_assoc]) hk
    rw [f32Value, f32Sign_i2f, magnitude]
    split
    next negative =>
      have := of_decide_eq_true negative
      omega
    next positive =>
      have := of_decide_eq_false (Bool.eq_false_iff.mpr positive)
      omega

/-! ### Distances between a pattern and an integer -/

/-- With the sign of the integer, the distance is that of the magnitudes. -/
theorem abs_f32Value_sub_of_sign {g : Word} {i : Int} (sign : f32Sign g = decide (i < 0)) :
    |f32Value g - i * 2 ^ 149| = |(f32Magnitude g : Int) - (i.natAbs * 2 ^ 149 : Nat)| := by
  rw [Int.abs_eq_natAbs, Int.abs_eq_natAbs, f32Value, sign]
  split
  next negative =>
    have := of_decide_eq_true negative
    omega
  next positive =>
    have := of_decide_eq_false (Bool.eq_false_iff.mpr positive)
    omega

/-- With the other sign, the distance is the sum of the magnitudes. -/
theorem abs_f32Value_sub_of_other_sign {g : Word} {i : Int} (sign : f32Sign g ≠ decide (i < 0)) :
    |f32Value g - i * 2 ^ 149| = (f32Magnitude g : Int) + (i.natAbs * 2 ^ 149 : Nat) := by
  rw [Int.abs_eq_natAbs, f32Value, Bool.eq_not_of_ne sign]
  by_cases negative : i < 0
  · simp only [negative, decide_true, Bool.not_true, Bool.false_eq_true, if_false]
    omega
  · simp only [negative, decide_false, Bool.not_false, if_true]
    omega

theorem f32Value_congr {f g : Word} (sign : f32Sign f = f32Sign g) (magnitude : f32Magnitude f = f32Magnitude g) :
    f32Value f = f32Value g := by
  rw [f32Value, f32Value, sign, magnitude]

/-- R141: no pattern is nearer to the integer, and one of another value that is as near stands beside an even
pattern. -/
theorem i2f_nearest {i : Int} (h31 : i.natAbs ≤ 2 ^ 31) (g : Word) :
    |f32Value (i2f .nearestTiesToEven i) - i * 2 ^ 149| ≤ |f32Value g - i * 2 ^ 149| ∧
      (f32Value g ≠ f32Value (i2f .nearestTiesToEven i) →
        |f32Value (i2f .nearestTiesToEven i) - i * 2 ^ 149| = |f32Value g - i * 2 ^ 149| →
          (i2f .nearestTiesToEven i).getLsbD 0 = false) := by
  by_cases h0 : i = 0
  · rw [h0, i2f_zero]
    refine ⟨?_, fun _ _ => rfl⟩
    rw [abs_f32Value_sub_of_sign (by rfl)]
    exact abs_nonneg _
  · obtain ⟨q, u, c, rounds⟩ := roundsTo_i2f .nearestTiesToEven h0 h31
    obtain ⟨near, tie⟩ := rounds.nearest_magnitude g
    have sign := f32Sign_i2f .nearestTiesToEven i
    rw [abs_f32Value_sub_of_sign sign]
    by_cases same : f32Sign g = decide (i < 0)
    · rw [abs_f32Value_sub_of_sign same]
      exact ⟨near, fun differ equal => (tie equal).resolve_left fun magnitude =>
        differ (f32Value_congr (same.trans sign.symm) magnitude.symm)⟩
    · rw [abs_f32Value_sub_of_other_sign same]
      have farther : |(f32Magnitude g : Int) - (i.natAbs * 2 ^ 149 : Nat)| ≤
          f32Magnitude g + (i.natAbs * 2 ^ 149 : Nat) := by
        rw [Int.abs_eq_natAbs]
        omega
      refine ⟨near.trans farther, fun differ equal => ?_⟩
      have equal' := near.antisymm (farther.trans equal.ge)
      refine (tie equal').resolve_left fun magnitude => ?_
      have positive := Nat.lt_of_lt_of_le (Nat.two_pow_pos _) (le_f32Magnitude rounds.exp_ne_zero)
      rw [Int.abs_eq_natAbs] at equal
      omega

/-- Settles O38: the pattern is a rounding of the magnitude with the sign of the integer (`roundsTo_i2f`), which
is nearest because no magnitude lies between the two it chooses from (`i2f_nearest`). -/
theorem integerToFloatIsTheNearestFloat : Obligations.IntegerToFloatIsTheNearestFloat := by
  intro i lower upper
  have h31 : i.natAbs ≤ 2 ^ 31 := by omega
  refine ⟨f32Exp_i2f_ne_max _ h31, ?_, fun g _ => (i2f_nearest h31 g).1, fun g _ => (i2f_nearest h31 g).2,
    fun rnd k j hi hk => f32Value_i2f_of_significant rnd h31 hi hk⟩
  rintro rfl
  exact i2f_zero _

end Sys2Proof.Machine
end

section
/-! FROMINT and TOINT (spec/42_int_wrappers.md rules R140, R145 to R147; O39, O41 to O43): the truncation toward zero
in units of 2^(-149), the two commands behind the gate, and the round trips. -/

namespace Sys2Proof.Machine

/-! ### The value of a 16-bit pattern (R146) -/

/-- The integer of largest magnitude not above that of the value of `h : 0x0000`. -/
def truncatedMagnitude (h : Half) : Nat := f32Magnitude (widen h) / 2 ^ 149

/-- `truncatedMagnitude` with the sign of the pattern. -/
def truncatedValue (h : Half) : Int :=
  if halfSign h then -(truncatedMagnitude h : Int) else (truncatedMagnitude h : Int)

theorem natAbs_truncatedValue (h : Half) : (truncatedValue h).natAbs = truncatedMagnitude h := by
  unfold truncatedValue
  split <;> simp

theorem toNat_f32Frac_widen (h : Half) : (f32Frac (widen h)).toNat = (halfFrac h).toNat * 2 ^ 16 := by
  rw [f32Frac_widen, BitVec.toNat_append]
  simp [Nat.shiftLeft_eq]

theorem f32Magnitude_widen_of_exp_zero {h : Half} (he : halfExp h = 0#8) :
    f32Magnitude (widen h) = (halfFrac h).toNat * 2 ^ 16 := by
  rw [f32Magnitude_of_exp_zero ((f32Exp_widen h).trans he), toNat_f32Frac_widen]

theorem f32Magnitude_widen_of_exp_ne_zero {h : Half} (he : halfExp h ≠ 0#8) :
    f32Magnitude (widen h) = (128 + (halfFrac h).toNat) * 2 ^ ((halfExp h).toNat + 15) := by
  have hw : f32Exp (widen h) ≠ 0#8 := by rwa [f32Exp_widen]
  have pos := toNat_f32Exp_pos hw
  rw [f32Magnitude_of_exp_ne_zero hw, toNat_f32Frac_widen, f32Exp_widen] at *
  rw [show 2 ^ 23 + (halfFrac h).toNat * 2 ^ 16 = (128 + (halfFrac h).toNat) * 2 ^ 16 by omega, Nat.mul_assoc,
    ← Nat.pow_add]
  congr 2
  omega

theorem truncatedMagnitude_of_exp_zero {h : Half} (he : halfExp h = 0#8) : truncatedMagnitude h = 0 := by
  have frac := (halfFrac h).isLt
  rw [truncatedMagnitude, f32Magnitude_widen_of_exp_zero he]
  omega

section
variable {h : Half}

/-! R146, the three branches of `mag`. -/

theorem mag_of_fraction (fraction : (halfExp h).toNat < 127) : mag h = 0 := if_pos fraction

theorem mag_of_mixed (lower : 127 ≤ (halfExp h).toNat) (upper : (halfExp h).toNat ≤ 133) :
    mag h = (128 + (halfFrac h).toNat) / 2 ^ (134 - (halfExp h).toNat) :=
  (if_neg (Nat.not_lt.mpr lower)).trans (if_pos upper)

theorem mag_of_integral (lower : 134 ≤ (halfExp h).toNat) :
    mag h = (128 + (halfFrac h).toNat) * 2 ^ ((halfExp h).toNat - 134) :=
  (if_neg (by omega)).trans (if_neg (by omega))

end

/-- R146: the formula `mag` is the truncated magnitude. -/
theorem mag_eq_truncatedMagnitude {h : Half} (he : halfExp h ≠ 0#8) : mag h = truncatedMagnitude h := by
  have frac := (halfFrac h).isLt
  rw [truncatedMagnitude, f32Magnitude_widen_of_exp_ne_zero he]
  rcases Nat.lt_or_ge (halfExp h).toNat 127 with fraction | lower
  · rw [mag_of_fraction fraction, eq_comm, Nat.div_eq_zero_iff_lt (by decide)]
    calc (128 + (halfFrac h).toNat) * 2 ^ ((halfExp h).toNat + 15)
        < 2 ^ 8 * 2 ^ ((halfExp h).toNat + 15) := Nat.mul_lt_mul_of_pos_right (by omega) (Nat.two_pow_pos _)
      _ = 2 ^ (8 + ((halfExp h).toNat + 15)) := (Nat.pow_add ..).symm
      _ ≤ 2 ^ 149 := Nat.pow_le_pow_right (by decide) (by omega)
  · rcases Nat.lt_or_ge 133 (halfExp h).toNat with integral | mixed
    · have scale : 2 ^ ((halfExp h).toNat + 15) = 2 ^ ((halfExp h).toNat - 134) * 2 ^ 149 := by
        rw [← Nat.pow_add]; congr 1; omega
      rw [mag_of_integral integral, scale, ← Nat.mul_assoc, Nat.mul_div_cancel _ (Nat.two_pow_pos _)]
    · have scale : 2 ^ 149 = 2 ^ (134 - (halfExp h).toNat) * 2 ^ ((halfExp h).toNat + 15) := by
        rw [← Nat.pow_add]; congr 1; omega
      rw [mag_of_mixed lower mixed, scale, Nat.mul_div_mul_right _ _ (Nat.two_pow_pos _)]

/-- A truncated magnitude has at most eight significant bits. -/
theorem truncatedMagnitude_eight_bits (h : Half) : ∃ k j, k ≤ 255 ∧ truncatedMagnitude h = k * 2 ^ j := by
  have frac := (halfFrac h).isLt
  by_cases he : halfExp h = 0#8
  · exact ⟨0, 0, by omega, truncatedMagnitude_of_exp_zero he⟩
  · rw [← mag_eq_truncatedMagnitude he]
    rcases Nat.lt_or_ge (halfExp h).toNat 127 with fraction | lower
    · exact ⟨0, 0, by omega, mag_of_fraction fraction⟩
    · rcases Nat.lt_or_ge 133 (halfExp h).toNat with integral | mixed
      · exact ⟨_, _, by omega, mag_of_integral integral⟩
      · exact ⟨_, 0, (Nat.div_le_self _ _).trans (by omega), (mag_of_mixed lower mixed).trans (Nat.mul_one _).symm⟩

theorem f2i_of_exp_max {h : Half} (he : halfExp h = 255#8) : f2i h = none := if_pos he

theorem f2i_of_finite {h : Half} (he : halfExp h ≠ 255#8) : f2i h = some (truncatedValue h) := by
  unfold f2i truncatedValue
  rw [if_neg he]
  by_cases h0 : halfExp h = 0#8
  · rw [if_pos h0, truncatedMagnitude_of_exp_zero h0]
    simp
  · rw [if_neg h0, mag_eq_truncatedMagnitude h0]
    split <;> rfl

/-- The value is the truncated integer exactly when it has no fraction. -/
theorem f32Value_widen_eq_iff (h : Half) :
    f32Value (widen h) = truncatedValue h * 2 ^ 149 ↔ f32Magnitude (widen h) % 2 ^ 149 = 0 := by
  rw [f32Value, f32Sign_widen, truncatedValue, truncatedMagnitude]
  split <;> omega

/-- A pattern whose value is an integer is truncated to that integer. -/
theorem truncatedValue_of_f32Value {h : Half} {i : Int} (value : f32Value (widen h) = i * 2 ^ 149) :
    truncatedValue h = i := by
  rw [f32Value, f32Sign_widen] at value
  rw [truncatedValue, truncatedMagnitude]
  split at value
  next negative =>
    rw [if_pos negative]
    omega
  next positive =>
    rw [if_neg positive]
    omega

/-! ### Operands of `w` bits (R6, R9) -/

theorem sval_bounds (w : Nat) (x : Word) (h1 : 1 ≤ w) :
    -2 ^ (w - 1) ≤ sval w x ∧ sval w x ≤ 2 ^ (w - 1) - 1 := by
  have double : (2 : Int) ^ w = 2 * 2 ^ (w - 1) := by rw [← pow_succ', Nat.sub_add_cancel h1]
  have cast : ((2 ^ (w - 1) : Nat) : Int) = 2 ^ (w - 1) := by norm_cast
  have below : ((x.toNat % 2 ^ w : Nat) : Int) < 2 ^ w := by
    exact_mod_cast Nat.mod_lt x.toNat (Nat.two_pow_pos w)
  unfold sval
  simp only
  split <;> omega

theorem natAbs_le_of_bounds {w : Nat} {i : Int} (h32 : w ≤ 32) (lower : -2 ^ (w - 1) ≤ i)
    (upper : i ≤ 2 ^ (w - 1) - 1) : i.natAbs ≤ 2 ^ 31 := by
  have wide : (2 : Int) ^ (w - 1) ≤ 2 ^ 31 := pow_le_pow_right₀ (by decide) (by omega)
  omega

theorem intW_bounds {p : Params} (legal : p.wellFormed = true) : 10 ≤ p.intW ∧ p.intW ≤ 32 := by
  simpa [Params.wellFormed] using legal

/-- The operand of a legal machine fits 32 bits. -/
theorem natAbs_sval_le {p : Params} (legal : p.wellFormed = true) (x : Word) : (sval p.intW x).natAbs ≤ 2 ^ 31 := by
  obtain ⟨h10, h32⟩ := intW_bounds legal
  obtain ⟨lower, upper⟩ := sval_bounds p.intW x (by omega)
  exact natAbs_le_of_bounds h32 lower upper

/-! ### The two commands behind the gate (R140, R145) -/

theorem gated_of_set (s t : State) (set : s.mode ≠ .uninit) : s.gated (fun _ => t) = t := by
  rcases s.gated_cases (fun _ => t) with ⟨uninit, _⟩ | ⟨_, _, goes⟩
  · exact absurd uninit set
  · exact goes

theorem exec_fromint_of_set (n : Word) (s : State) (set : s.mode ≠ .uninit) :
    exec (.fromint n) s = .next (s.finish (zext (narrow (i2f s.params.rounding (sval s.params.intW n))))) :=
  congrArg Host.Outcome.next (gated_of_set s _ set)

theorem exec_toint_of_set (h : Half) (s : State) (set : s.mode ≠ .uninit) :
    exec (.toint h) s = .next (tointAnswer h s) :=
  congrArg Host.Outcome.next (gated_of_set s _ set)

theorem tointAnswer_of_exp_max {h : Half} (he : halfExp h = 255#8) (s : State) :
    tointAnswer h s = s.raise .intConvRange := by
  rw [tointAnswer, f2i_of_exp_max he]

/-- TOINT of a finite pattern answers the truncated value, or raises when it is out of range. -/
theorem tointAnswer_of_finite {h : Half} (he : halfExp h ≠ 255#8) (s : State) :
    tointAnswer h s =
      if truncatedValue h < -2 ^ (s.params.intW - 1) ∨ 2 ^ (s.params.intW - 1) - 1 < truncatedValue h then
        s.raise .intConvRange
      else s.finish (tc s.params.intW (truncatedValue h)) := by
  rw [tointAnswer, f2i_of_finite he]

/-- When TOINT answers, the truncated value fits and is the answer. -/
theorem toint_answers {h : Half} {v : Word} {s t : State} (set : s.mode ≠ .uninit) (ran : exec (.toint h) s = .next t)
    (answered : AnsweredWith v s t) :
    -2 ^ (s.params.intW - 1) ≤ truncatedValue h ∧ truncatedValue h ≤ 2 ^ (s.params.intW - 1) - 1 ∧
      v = tc s.params.intW (truncatedValue h) ∧ t = s.finish v := by
  obtain rfl : tointAnswer h s = t := Host.Outcome.next.inj ((exec_toint_of_set h s set).symm.trans ran)
  rcases tointAnswer_cases h s with raised | ⟨n, hn, lower, upper, finished⟩
  · rw [raised] at answered
    exact absurd answered (not_answeredWith_raise v s _)
  · have finite : halfExp h ≠ 255#8 := by
      intro he
      rw [f2i_of_exp_max he] at hn
      cases hn
    obtain rfl : truncatedValue h = n := Option.some.inj ((f2i_of_finite finite).symm.trans hn)
    rw [finished, answeredWith_finish_iff] at answered
    exact ⟨lower, upper, answered.symm, answered ▸ finished⟩

/-- Settles O39: the two ends of the gate; the exponent field is that of `i2f`. -/
theorem fromintAnswersTheTruncatedFloat : Obligations.FromintAnswersTheTruncatedFloat := by
  intro n s legal
  refine ⟨fun uninit => ⟨_, rfl, gated_faults_at_gate s _ uninit⟩, fun set => ?_⟩
  have h31 := natAbs_sval_le legal n
  exact ⟨_, _, exec_fromint_of_set n s set, rfl, (answeredWith_finish_iff _ _ s).mpr (half_extended _),
    f32Exp_i2f_ne_max _ h31, f32Exp_i2f_eq_zero_iff _ h31⟩

/-- Settles O41: the three ends of TOINT after the gate, with `g` the truncated magnitude, and `mag` as its formula. -/
theorem tointTruncatesTowardZero : Obligations.TointTruncatesTowardZero := by
  refine ⟨fun h s uninit => ⟨_, rfl, gated_faults_at_gate s _ uninit⟩,
    fun h s set => ⟨_, exec_toint_of_set h s set, ?_⟩, fun h lower _ => ?_⟩
  · split
    next infinite =>
      rw [tointAnswer_of_exp_max infinite]
      exact faultedWith_raise _ s
    next finite =>
      refine ⟨truncatedMagnitude h, truncatedValue h, Nat.div_mul_le_self _ _,
        (Nat.div_lt_iff_lt_mul (by decide)).mp (Nat.lt_succ_self _), rfl, ?_⟩
      rw [tointAnswer_of_finite finite]
      split
      · exact faultedWith_raise _ s
      · rfl
  · refine mag_eq_truncatedMagnitude fun he => ?_
    rw [he] at lower
    exact absurd lower (by decide)

/-! ### The round trips (R147) -/

/-- An integer of at most eight significant bits is the value of its narrowed pattern, under every rounding. -/
theorem widen_narrow_i2f (rnd : Rounding) {i : Int} {k j : Nat} (h31 : i.natAbs ≤ 2 ^ 31)
    (hi : i.natAbs = k * 2 ^ j) (hk : k ≤ 255) :
    widen (narrow (i2f rnd i)) = i2f rnd i ∧ f32Value (i2f rnd i) = i * 2 ^ 149 := by
  have value := f32Value_i2f_of_significant rnd h31 hi (by omega)
  refine ⟨widen_narrow_of_eight_bits (k := k) (j := j) ?_ (by omega), value⟩
  rw [← natAbs_f32Value, value, Int.natAbs_mul, hi, Nat.pow_add, ← Nat.mul_assoc]
  rfl

/-- Settles O42: FROMINT drops only zeros (`widen_narrow_i2f`), so TOINT truncates the integer itself, which fits
because it was an operand. -/
theorem integerSurvivesFromintThenToint : Obligations.IntegerSurvivesFromintThenToint := by
  intro n s k j legal set hk hn
  obtain ⟨h10, h32⟩ := intW_bounds legal
  have h31 := natAbs_sval_le legal n
  obtain ⟨lower, upper⟩ := sval_bounds s.params.intW n (by omega)
  obtain ⟨kept, value⟩ := widen_narrow_i2f s.params.rounding h31 hn hk
  have finite := f32Exp_i2f_ne_max s.params.rounding h31
  rw [← halfExp_narrow] at finite
  rw [← kept] at value
  refine ⟨_, _, _, exec_fromint_of_set n s set, rfl, exec_toint_of_set _ _ set, ?_⟩
  rw [tointAnswer_of_finite finite, truncatedValue_of_f32Value value, State.finish_params, if_neg (by omega)]
  rfl

/-- R147 (c), about the patterns: back from `i2f` comes the pattern exactly when it has no fraction and is not -0. -/
theorem narrow_i2f_truncatedValue_eq_iff (rnd : Rounding) (h : Half) (h31 : (truncatedValue h).natAbs ≤ 2 ^ 31) :
    narrow (i2f rnd (truncatedValue h)) = h ↔ h ≠ 0x8000#16 ∧ f32Magnitude (widen h) % 2 ^ 149 = 0 := by
  obtain ⟨k, j, hk, significant⟩ := truncatedMagnitude_eight_bits h
  obtain ⟨kept, value⟩ := widen_narrow_i2f rnd h31 ((natAbs_truncatedValue h).trans significant) hk
  rw [← f32Value_widen_eq_iff, ← value]
  constructor
  · intro back
    rw [back] at kept
    refine ⟨?_, congrArg f32Value kept⟩
    rintro rfl
    have zero : truncatedValue 0x8000#16 = 0 := by decide
    rw [zero, i2f_zero] at kept
    exact absurd kept (by decide)
  · rintro ⟨notNegativeZero, same⟩
    by_cases zero : truncatedValue h = 0
    · have zeros := (f32Value_eq_zero_iff (widen h)).mp (by rw [same, value, zero]; rfl)
      rw [zero, i2f_zero, ← narrow_widen h]
      rcases zeros with positive | negative
      · rw [positive]
      · refine absurd ?_ notNegativeZero
        rw [← narrow_widen h, negative]
        rfl
    · have nonzero : f32Value (widen h) ≠ 0 := by
        rw [same, value]
        omega
      rw [← eq_of_f32Value_eq same nonzero, narrow_widen]

/-- Settles O43: FROMINT reads TOINT's answer back as the truncated value (`sval_tc`), and the rest is about
patterns (`narrow_i2f_truncatedValue_eq_iff`). -/
theorem halfSurvivesTointThenFromintIffInteger : Obligations.HalfSurvivesTointThenFromintIffInteger := by
  intro h v s t legal set ran answered
  obtain ⟨h10, h32⟩ := intW_bounds legal
  obtain ⟨lower, upper, answer, rfl⟩ := toint_answers set ran answered
  have operand : sval s.params.intW v = truncatedValue h :=
    answer ▸ sval_tc s.params.intW _ (by omega) h32 lower (by omega)
  have again := exec_fromint_of_set v (s.finish v) set
  rw [s.finish_params, operand] at again
  exact ⟨_, _, again, rfl, narrow_i2f_truncatedValue_eq_iff _ h (natAbs_le_of_bounds h32 lower upper)⟩

end Sys2Proof.Machine
end

section
/-! CENC and CDEC field by field (spec/43_cryptic_codec.md rules R160, R161, R165, R168; O44, O45) and what their ends
depend on (rule R171; O47). -/

namespace Sys2Proof.Machine

/-! ### CENC (R160, R161) -/

/-- R161: the fields of a packed magnitude, by the position `p` of its highest set bit. -/
theorem pack_fields (s : Bool) (m : Nat) (h1 : 1 ≤ m) (h255 : m ≤ 255) :
    ∃ p, 2 ^ p ≤ m ∧ m < 2 ^ (p + 1) ∧ halfSign (pack s m) = s ∧ (halfExp (pack s m)).toNat = p + 127 ∧
      (halfFrac (pack s m)).toNat = (m - 2 ^ p) * 2 ^ (7 - p) := by
  obtain ⟨lower, upper⟩ := (hsb_eq_iff m _ (Nat.ne_of_gt h1)).mp rfl
  exact ⟨hsb m, lower, upper, halfSign_pack s m, halfExp_pack s m h1 h255, halfFrac_pack s m h1 h255⟩

/-- Settles O44: out of range CENC raises; in range it answers `cencPattern`, which is the zero pattern or packed with
the fields of `pack_fields`. -/
theorem cencPacksSignExponentAndMantissa : Obligations.CencPacksSignExponentAndMantissa := by
  rintro n s i rfl
  refine ⟨fun zero => ?_, fun outOfRange => ?_, fun h1 h255 => ?_⟩
  · have ends := exec_cenc_inRange n s (by omega)
    rw [zero] at ends
    exact ⟨_, ends, rfl⟩
  · exact ⟨_, exec_cenc_outOfRange n s outOfRange, faultedWith_raise _ s⟩
  · have ends := exec_cenc_inRange n s h255
    rw [cencPattern_of_ne_zero _ (by omega)] at ends
    obtain ⟨p, lower, upper, sign, exp, frac⟩ := pack_fields (decide (sval s.params.intW n < 0)) _ h1 h255
    exact ⟨_, _, p, ends, (answeredWith_finish_iff _ _ s).mpr (half_extended _), lower, upper, sign, exp, frac⟩

/-! ### CDEC (R165, R168) -/

/-- R166: a nonzero pattern with an exponent field outside the format has no value. -/
theorem not_cdecAnswers (v : Half) (nonzero : v ≠ 0x0000#16)
    (outside : (halfExp v).toNat < 127 ∨ 134 < (halfExp v).toNat) : ¬ cdecAnswers v := by
  rintro (zero | inFormat)
  · exact nonzero zero
  · obtain ⟨lower, upper⟩ := (exponentInFormat_iff v).mp inFormat
    omega

theorem leadingBit_of_exp {v : Half} {p : Nat} (exp : (halfExp v).toNat = p + 127) : leadingBit v = p := by
  rw [leadingBit_eq, exp, Nat.add_sub_cancel]

/-- Settles O45: a pattern without a value raises; one with a value is answered by `cdecValue`, which is 0 or the signed
`unpackMagnitude`. -/
theorem cdecUnpacksTheMagnitude : Obligations.CdecUnpacksTheMagnitude := by
  refine fun v s => ⟨fun zero => ?_, fun nonzero outside => ?_, fun p hp exp => ?_⟩
  · subst zero
    exact ⟨_, exec_cdec_answers _ s (.inl rfl), rfl⟩
  · exact ⟨_, exec_cdec_reserved v s (not_cdecAnswers v nonzero outside), faultedWith_raise _ s⟩
  · have inFormat : exponentInFormat v = true := (exponentInFormat_iff v).mpr (by omega)
    have ends := exec_cdec_answers v s (.inr inFormat)
    rw [cdecValue_of_exponentInFormat v inFormat, unpack_eq] at ends
    obtain ⟨lower, upper⟩ := unpackMagnitude_range v inFormat
    exact ⟨_, unpackMagnitude v, ends, by rw [unpackMagnitude, leadingBit_of_exp exp], lower, upper, rfl⟩

/-! ### What the codec's ends depend on (R171) -/

/-- The parameters decide between one cause and one answer, the same for every state that has them. -/
def DecidedByParams (i : Instr) (p : Params) : Prop :=
  (∃ c, ∀ s : State, s.params = p → exec i s = .next (s.raise c)) ∨
    ∃ x, ∀ s : State, s.params = p → exec i s = .next (s.finish x)

theorem cenc_decidedByParams (n : Word) (p : Params) : DecidedByParams (.cenc n) p := by
  rcases Nat.lt_or_ge 255 (sval p.intW n).natAbs with outOfRange | inRange
  · refine .inl ⟨.encodeRange, ?_⟩
    rintro s rfl
    exact exec_cenc_outOfRange n s outOfRange
  · refine .inr ⟨zext (cencPattern (sval p.intW n)), ?_⟩
    rintro s rfl
    exact exec_cenc_inRange n s inRange

theorem cdec_decidedByParams (v : Half) (p : Params) : DecidedByParams (.cdec v) p := by
  by_cases answers : cdecAnswers v
  · refine .inr ⟨tc p.intW (cdecValue v), ?_⟩
    rintro s rfl
    exact exec_cdec_answers v s answers
  · exact .inl ⟨.invalidEncoding, fun s _ => exec_cdec_reserved v s answers⟩

/-- The two persisted bytes, the first above the second, are the pattern (R47). -/
theorem val16_persistedBytes (v : Half) : val16 .bigEndian (v.extractLsb' 8 8) (v.extractLsb' 0 8) = v :=
  (append_eq_iff_slices (v.extractLsb' 8 8) (v.extractLsb' 0 8) v).mpr ⟨rfl, rfl⟩

/-- Settles O47: both states end alike, for their parameters decide the end; a fault's result is not compared. The
persisted bytes are the two slices of the pattern. -/
theorem codecIgnoresModeAndMemory : Obligations.CodecIgnoresModeAndMemory := by
  refine ⟨fun i n v s u codec same => ?_,
    fun v => ⟨v.extractLsb' 8 8, v.extractLsb' 0 8, rfl, rfl, rfl, val16_persistedBytes v⟩⟩
  have decided : DecidedByParams i u.params := by
    rcases codec with rfl | rfl
    · exact cenc_decidedByParams n u.params
    · exact cdec_decidedByParams v u.params
  rcases decided with ⟨c, ends⟩ | ⟨x, ends⟩
  · exact ⟨_, _, _, _, ends s same, ends u rfl, rfl, rfl, rfl, fun ok => absurd ok c.code_ne_ok, rfl, rfl, rfl⟩
  · exact ⟨_, _, _, _, ends s same, ends u rfl, rfl, rfl, rfl, fun _ => rfl, rfl, rfl, rfl⟩

end Sys2Proof.Machine
end

section
/-! Faults (spec/60_exceptions.md rules R201, R204, R205, R210, R235; O7, O18 to O21): every command raises the first
violated precondition of the table, or answers (`exec_endsBy`), and which of the two it does, with what effect, is
decided by MODE, MEM and the parameters alone. -/

namespace Sys2Proof.Machine

/-- Settles O7: the first equation of a step. -/
theorem idleBlockHoldsItsState : Obligations.IdleBlockHoldsItsState := step_of_nil

/-- Settles O18: the table of codes, which name their causes. -/
theorem faultCodesFollowTheTable : Obligations.FaultCodesFollowTheTable :=
  ⟨rfl, fun c d => ⟨c.code_ne_ok, c.code_injective d⟩⟩

/-! ### Commands that fault (R204) -/

/-- Of the ends of a command only a raised cause reports a status other than OK. -/
theorem raised_of_fault {d : Descriptor} {s t : State} {r : Response} (h : perform d s = .next t)
    (hr : t.response = some r) (fault : r.status ≠ 0x00#8) : ∃ c, t = s.raise c := by
  cases commandEnd_of_perform d s t h with
  | raised c => exact ⟨c, rfl⟩
  | answered | initialized | converted =>
    obtain rfl := Option.some.inj hr
    exact absurd rfl fault

/-- Settles O19: the command has raised a cause, and raising meets the frame of R204. -/
theorem faultingCommandChangesOnlyFlt : Obligations.FaultingCommandChangesOnlyFlt := by
  intro d s t r h hr fault
  obtain ⟨c, rfl⟩ := raised_of_fault h hr fault
  exact ⟨c, faultedWith_raise c s⟩

/-! ### The table of preconditions (R210) -/

/-- The cause of the first row whose condition holds. -/
def firstOf (rows : List (Cause × Bool)) : Option Cause := (rows.find? fun e => e.2).map fun e => e.1

theorem firstFault_eq_firstOf (i : Instr) (s : State) : firstFault i s = firstOf (preconditions i s) := rfl

@[simp] theorem firstOf_nil : firstOf [] = none := rfl

@[simp] theorem firstOf_cons (c : Cause) (holds : Bool) (rest : List (Cause × Bool)) :
    firstOf ((c, holds) :: rest) = if holds = true then some c else firstOf rest := by
  cases holds <;> rfl

/-- After the gate, the rows of a bulk command are the checks of admission (R51). -/
theorem firstOf_bulkPreconditions (ss ds : Nat) (src srcLen dst dstLen count : Word) (s : State) :
    firstOf (bulkPreconditions ss ds src srcLen dst dstLen count s) =
      if s.mode = .uninit then some .notInitialized
      else s.admission ss ds src.toNat srcLen.toNat dst.toNat dstLen.toNat count.toNat := by
  have nonzero : count ≠ 0#32 ↔ 1 ≤ count.toNat := by
    rw [ne_eq, ← BitVec.toNat_inj, BitVec.toNat_zero, Nat.one_le_iff_ne_zero]
  simp [bulkPreconditions, State.admission, nonzero, BitVec.lt_def, and_assoc]

theorem firstFault_init (probe : Word) (s : State) :
    firstFault (.init probe) s =
      if s.mode ≠ .uninit then some .alreadyInitialized
      else if probe ≠ 0x00000001#32 ∧ probe ≠ 0x00000100#32 then some .probeInvalid else none := by
  simp [firstFault_eq_firstOf, preconditions]

/-- The formula `mag` is the truncated magnitude of a zero or a subnormal too. -/
theorem mag_eq_truncatedMagnitude_of_any (h : Half) : mag h = truncatedMagnitude h := by
  by_cases he : halfExp h = 0#8
  · rw [truncatedMagnitude_of_exp_zero he, mag_of_fraction (by simp [he])]
  · exact mag_eq_truncatedMagnitude he

/-- R145: the range check on the integer, as one on the magnitude for each sign. -/
theorem truncatedValue_outside_iff (h : Half) (w : Nat) :
    (truncatedValue h < -2 ^ (w - 1) ∨ 2 ^ (w - 1) - 1 < truncatedValue h) ↔
      (halfSign h = false ∧ mag h ≥ 2 ^ (w - 1)) ∨ (halfSign h = true ∧ mag h > 2 ^ (w - 1)) := by
  have cast : ((2 ^ (w - 1) : Nat) : Int) = 2 ^ (w - 1) := by norm_cast
  have pos : 0 < 2 ^ (w - 1) := Nat.two_pow_pos _
  rw [mag_eq_truncatedMagnitude_of_any, truncatedValue]
  cases halfSign h with
  | true =>
    simp only [if_true, reduceCtorEq, false_and, true_and, false_or]
    omega
  | false =>
    simp only [Bool.false_eq_true, if_false, false_and, true_and, or_false]
    omega

/-- The last row of TOINT: the integer does not exist or does not fit (R145). -/
theorem firstFault_toint (h : Half) (s : State) :
    firstFault (.toint h) s =
      if s.mode = .uninit then some .notInitialized
      else if halfExp h = 255#8 ∨ truncatedValue h < -2 ^ (s.params.intW - 1) ∨
        2 ^ (s.params.intW - 1) - 1 < truncatedValue h then some .intConvRange
      else none := by
  simp only [truncatedValue_outside_iff]
  simp [firstFault_eq_firstOf, preconditions, or_assoc]

theorem firstFault_cenc (n : Word) (s : State) :
    firstFault (.cenc n) s = if 255 < (sval s.params.intW n).natAbs then some .encodeRange else none := by
  simp [firstFault_eq_firstOf, preconditions]

/-- The one row of CDEC: the pattern has no value (R166). -/
theorem firstFault_cdec (v : Half) (s : State) :
    firstFault (.cdec v) s =
      if v = 0x0000#16 ∨ exponentInFormat v = true then none else some .invalidEncoding := by
  have violated : (decide (v ≠ 0x0000#16) && (decide (halfExp v < 127#8) || decide (halfExp v > 134#8))) = true ↔
      ¬ (v = 0x0000#16 ∨ exponentInFormat v = true) := by
    rw [not_or, exponentInFormat_iff, not_and_or, Nat.not_le, Nat.not_le]
    simp [BitVec.lt_def]
  simp only [firstFault_eq_firstOf, preconditions, firstOf_cons, firstOf_nil, violated, ite_not]

/-! ### What decides the end of a command (R205) -/

/-- `u` has the MODE, the MEM and the parameters of `s`. -/
structure State.Alike (s u : State) : Prop where
  mode : u.mode = s.mode
  mem : u.mem = s.mem
  params : u.params = s.params

theorem State.Alike.refl (s : State) : s.Alike s := ⟨rfl, rfl, rfl⟩

/-- Later commands see nothing of a fault (R204). -/
theorem State.alike_raise (s : State) (c : Cause) : s.Alike (s.raise c) := ⟨rfl, rfl, rfl⟩

theorem State.Alike.admission {s u : State} (same : s.Alike u) : u.admission = s.admission := by
  unfold State.admission State.memBytes
  rw [same.params]

/-- In every state alike to `s`, `f` raises the fault if there is one; without one it answers, with the same MODE, MEM
and result. -/
def EndsBy (f : State → Host.Outcome State Fault Refusal) (s : State) : Option Cause → Prop
  | some c => ∀ u, s.Alike u → f u = .next (u.raise c)
  | none => ∃ m mem v, ∀ u, s.Alike u → f u = .next (((u.withMode m).withMem mem).finish v)

section
variable {f : State → Host.Outcome State Fault Refusal} {s : State}

theorem endsBy_finish (v : Word) (answers : ∀ u, s.Alike u → f u = .next (u.finish v)) : EndsBy f s none := by
  refine ⟨s.mode, s.mem, v, fun u same => ?_⟩
  rw [answers u same, ← same.mode, ← same.mem]
  rfl

theorem Mode.ofOrder_ne_uninit (o : ByteOrder) : Mode.ofOrder o ≠ .uninit := by cases o <;> decide

/-- The gate, then what comes after it (R104, R210). -/
theorem endsBy_gated {go : State → ByteOrder → State} {fault : Option Cause}
    (after : ∀ o, s.mode = Mode.ofOrder o → EndsBy (fun u => .next (go u o)) s fault) :
    EndsBy (fun u => .next (u.gated (go u))) s (if s.mode = .uninit then some .notInitialized else fault) := by
  rcases s.gated_cases (go s) with ⟨uninit, _⟩ | ⟨o, order, _⟩
  · rw [if_pos uninit]
    exact fun u same => congrArg _ (u.gated_uninit _ (same.mode.trans uninit))
  · have set : s.mode ≠ .uninit := ne_of_eq_of_ne order (Mode.ofOrder_ne_uninit o)
    have opens : ∀ u, s.Alike u → u.gated (go u) = go u o := fun u same =>
      u.gated_ofOrder _ o (same.mode.trans order)
    rw [if_neg set]
    cases fault with
    | some c => exact fun u same => (congrArg _ (opens u same)).trans (after o order u same)
    | none =>
      obtain ⟨m, mem, v, answers⟩ := after o order
      exact ⟨m, mem, v, fun u same => (congrArg _ (opens u same)).trans (answers u same)⟩

/-- A bulk command: the gate, then admission (R51). -/
theorem endsBy_bulk (ss ds : Nat) (src srcLen dst dstLen count : Word) (convert : ByteOrder → Memory → Memory) :
    EndsBy (fun u => .next (u.bulk ss ds src srcLen dst dstLen count convert)) s
      (firstOf (bulkPreconditions ss ds src srcLen dst dstLen count s)) := by
  rw [firstOf_bulkPreconditions]
  refine endsBy_gated fun o order => ?_
  cases checked : s.admission ss ds src.toNat srcLen.toNat dst.toNat dstLen.toNat count.toNat with
  | some c =>
    intro u same
    simp only [same.admission, checked, State.unless]
  | none =>
    refine ⟨s.mode, convert o s.mem, 0#32, fun u same => ?_⟩
    simp only [same.admission, checked, State.unless]
    rw [← same.mode, ← same.mem]
    rfl

end

theorem endsBy_init (probe : Word) (s : State) : EndsBy (exec (.init probe)) s (firstFault (.init probe) s) := by
  rw [firstFault_init]
  by_cases uninit : s.mode = .uninit
  · rw [if_neg (not_not.mpr uninit)]
    by_cases little : probe = 0x00000001#32
    · rw [if_neg fun bad => bad.1 little, little]
      exact ⟨.littleEndian, s.mem, 0#32, fun u same => same.mem ▸ exec_init_littleEndian u (same.mode.trans uninit)⟩
    · by_cases big : probe = 0x00000100#32
      · rw [if_neg fun bad => bad.2 big, big]
        exact ⟨.bigEndian, s.mem, 0#32, fun u same => same.mem ▸ exec_init_bigEndian u (same.mode.trans uninit)⟩
      · rw [if_pos ⟨little, big⟩]
        exact fun u same => exec_init_illegal_probe probe u (same.mode.trans uninit) little big
  · rw [if_pos uninit]
    exact fun u same => exec_init_of_set probe u (same.mode ▸ uninit)

theorem endsBy_toint (h : Half) (s : State) : EndsBy (exec (.toint h)) s (firstFault (.toint h) s) := by
  rw [firstFault_toint]
  refine endsBy_gated (go := fun u _ => tointAnswer h u) fun _ _ => ?_
  by_cases infinite : halfExp h = 255#8
  · rw [if_pos (.inl infinite)]
    exact fun u _ => congrArg _ (tointAnswer_of_exp_max infinite u)
  · simp only [infinite, false_or]
    split
    next outside =>
      intro u same
      simp only [tointAnswer_of_finite infinite, same.params, if_pos outside]
    next inside =>
      refine endsBy_finish (tc s.params.intW (truncatedValue h)) fun u same => ?_
      simp only [tointAnswer_of_finite infinite, same.params, if_neg inside]

theorem endsBy_cenc (n : Word) (s : State) : EndsBy (exec (.cenc n)) s (firstFault (.cenc n) s) := by
  rw [firstFault_cenc]
  split
  next outOfRange => exact fun u same => exec_cenc_outOfRange n u (same.params ▸ outOfRange)
  next inRange =>
    exact endsBy_finish _ fun u same => same.params ▸ exec_cenc_inRange n u (same.params ▸ Nat.not_lt.mp inRange)

theorem endsBy_cdec (v : Half) (s : State) : EndsBy (exec (.cdec v)) s (firstFault (.cdec v) s) := by
  rw [firstFault_cdec]
  split
  next answers => exact endsBy_finish _ fun u same => same.params ▸ exec_cdec_answers v u answers
  next reserved => exact fun u _ => exec_cdec_reserved v u reserved

/-- A command whose one precondition is the gate, behind which it answers (R118, R120, R140). -/
theorem endsBy_gated_answer (answer : Params → Word) (s : State) :
    EndsBy (fun u => .next (u.gated fun _ => u.finish (answer u.params))) s
      (firstOf [(.notInitialized, decide (s.mode = .uninit))]) := by
  simp only [firstOf_cons, firstOf_nil, decide_eq_true_eq]
  exact endsBy_gated (go := fun u _ => u.finish (answer u.params)) fun _ _ =>
    endsBy_finish (answer s.params) fun u same => by rw [same.params]

/-- Every command ends by its first violated precondition. -/
theorem exec_endsBy (i : Instr) (s : State) : EndsBy (exec i) s (firstFault i s) := by
  cases i with
  | init probe => exact endsBy_init probe s
  | narrow src srcLen dst dstLen count => exact endsBy_bulk 4 2 src srcLen dst dstLen count _
  | widen src srcLen dst dstLen count => exact endsBy_bulk 2 4 src srcLen dst dstLen count _
  | narrow1 f => exact endsBy_gated_answer (fun _ => zext (narrow f)) s
  | widen1 h => exact endsBy_gated_answer (fun _ => widen h) s
  | fromint n => exact endsBy_gated_answer (fun p => zext (narrow (i2f p.rounding (sval p.intW n)))) s
  | toint h => exact endsBy_toint h s
  | cenc n => exact endsBy_cenc n s
  | cdec v => exact endsBy_cdec v s

section
variable {i : Instr} {s : State} {c : Cause}

theorem exec_raises (violated : firstFault i s = some c) (u : State) (same : s.Alike u) :
    exec i u = .next (u.raise c) := by
  have ends := exec_endsBy i s
  rw [violated] at ends
  exact ends u same

theorem exec_answers (kept : firstFault i s = none) :
    ∃ m mem v, ∀ u, s.Alike u → exec i u = .next (((u.withMode m).withMem mem).finish v) := by
  have ends := exec_endsBy i s
  rw [kept] at ends
  exact ends

end

/-- Settles O21: an illegal descriptor raises IllegalCommand; a command ends by its first violated precondition
(`exec_endsBy`). -/
theorem firstViolatedPreconditionIsReported : Obligations.FirstViolatedPreconditionIsReported := by
  refine ⟨fun d s noCommand => ?_, fun i s c violated => ?_, fun i s kept => ?_⟩
  · have illegal : ¬ d.legal = true := by
      rw [← exists_command_iff_legal, not_exists]
      exact noCommand
    exact ⟨_, perform_of_not_legal illegal s, faultedWith_raise _ s⟩
  · exact ⟨_, exec_raises violated s (.refl s), faultedWith_raise c s⟩
  · obtain ⟨m, mem, v, answers⟩ := exec_answers kept
    exact ⟨_, _, answers s (.refl s), rfl, rfl, rfl⟩

/-! ### Commands after a fault (R205) -/

theorem State.Alike.sameAnswer_raise {s u : State} (same : s.Alike u) (c : Cause) :
    SameAnswer (s.raise c) (u.raise c) :=
  ⟨_, _, rfl, rfl, same.mode, same.mem, rfl, fun ok => absurd ok c.code_ne_ok⟩

/-- A command ends alike in states alike. -/
theorem State.Alike.sameEnd_exec {s u : State} (same : s.Alike u) (i : Instr) : SameEnd (exec i s) (exec i u) := by
  cases reported : firstFault i s with
  | some c =>
    rw [exec_raises reported s (.refl s), exec_raises reported u same]
    exact (same.sameAnswer_raise c).next
  | none =>
    obtain ⟨m, mem, v, answers⟩ := exec_answers reported
    rw [answers s (.refl s), answers u same]
    exact SameAnswer.next ⟨_, _, rfl, rfl, rfl, rfl, rfl, fun _ => rfl⟩

theorem State.Alike.sameEnd_perform {s u : State} (same : s.Alike u) (d : Descriptor) :
    SameEnd (perform d s) (perform d u) := by
  unfold perform
  cases decode d with
  | command i => exact same.sameEnd_exec i
  | illegal why => exact (same.sameAnswer_raise .illegalCommand).next

/-- Settles O20: the faulting command has raised a cause, which leaves a state alike to the one before it. -/
theorem faultLeavesLaterCommandsUnaffected : Obligations.FaultLeavesLaterCommandsUnaffected := by
  intro d s t r h hr fault e
  obtain ⟨c, rfl⟩ := raised_of_fault h hr fault
  obtain ⟨u, v, hu, hv, p, q, same⟩ := (s.alike_raise c).sameEnd_perform e
  exact ⟨u, v, p, q, hu, hv, same⟩

end Sys2Proof.Machine
end

section
/-! MODE against the order of the data (spec/20_memory.md section 1, spec/60_exceptions.md rule R210; O35): the mux
then selects the low half. -/

namespace Sys2Proof.Machine

/-- A word in the order `p`, cut where the mux of the other order `o` cuts it: the half at `hiOff o` is the low one. -/
theorem val32_halves_of_other_order {o p : ByteOrder} (other : p ≠ o) (byte : Nat → Byte) :
    val32 p (byte 0) (byte 1) (byte 2) (byte 3) =
      val16 p (byte (loOff o)) (byte (loOff o + 1)) ++ val16 p (byte (hiOff o)) (byte (hiOff o + 1)) := by
  cases o with
  | littleEndian =>
    cases p with
    | littleEndian => exact absurd rfl other
    | bigEndian => exact BitVec.append_assoc
  | bigEndian =>
    cases p with
    | littleEndian => exact BitVec.append_assoc
    | bigEndian => exact absurd rfl other

section
variable {o p : ByteOrder} {src dst n i : Nat} {m m' : Memory}

/-- Read in the other order, a narrowed element is the low half of its source. -/
theorem Narrowed.lowHalf (h : Narrowed o src dst n m m') (other : p ≠ o) (hi : i < n) :
    val16 p (m'.readByte (dst + 2 * i)) (m'.readByte (dst + 2 * i + 1)) =
      (val32 p (m.readByte (src + 4 * i)) (m.readByte (src + 4 * i + 1)) (m.readByte (src + 4 * i + 2))
        (m.readByte (src + 4 * i + 3))).extractLsb' 0 16 := by
  have first := h.copied i 0 hi (by decide)
  have second := h.copied i 1 hi (by decide)
  have halves := val32_halves_of_other_order other fun k => m.readByte (src + 4 * i + k)
  simp only [Nat.add_zero, ← Nat.add_assoc] at first halves
  rw [halves, BitVec.extractLsb'_append_eq_right, first, second]

/-- Read in the other order, a widened element has its source as the low half, below zeros. -/
theorem Widened.lowHalf (h : Widened o src dst n m m') (other : p ≠ o) (hi : i < n) :
    val32 p (m'.readByte (dst + 4 * i)) (m'.readByte (dst + 4 * i + 1)) (m'.readByte (dst + 4 * i + 2))
        (m'.readByte (dst + 4 * i + 3)) =
      0x0000#16 ++ val16 p (m.readByte (src + 2 * i)) (m.readByte (src + 2 * i + 1)) := by
  have first := h.placed i 0 hi (by decide)
  have second := h.placed i 1 hi (by decide)
  have firstZero := h.zeroed i 0 hi (by decide)
  have secondZero := h.zeroed i 1 hi (by decide)
  have halves := val32_halves_of_other_order other fun k => m'.readByte (dst + 4 * i + k)
  have zeros : val16 p 0x00#8 0x00#8 = 0x0000#16 := by cases p <;> rfl
  simp only [Nat.add_zero, ← Nat.add_assoc] at first firstZero halves
  rw [halves, first, second, firstZero, secondZero, zeros]

end

/-- After INIT, a bulk command that violates no precondition is admitted (R51). -/
theorem admitted_of_no_precondition_violated {s : State} {ss ds : Nat} {src srcLen dst dstLen count : Word}
    (set : s.mode ≠ .uninit) (kept : firstOf (bulkPreconditions ss ds src srcLen dst dstLen count s) = none) :
    s.admission ss ds src.toNat srcLen.toNat dst.toNat dstLen.toNat count.toNat = none := by
  rwa [firstOf_bulkPreconditions, if_neg set] at kept

/-- Settles O35: a bulk command that violates no precondition is admitted and converts in the order MODE holds, whose
mux takes the low half of data in the other order. -/
theorem wrongModeSelectsTheLowHalf : Obligations.WrongModeSelectsTheLowHalf := by
  intro src srcLen dst dstLen count s o p order other
  have set : s.mode ≠ .uninit := ne_of_eq_of_ne order (Mode.ofOrder_ne_uninit o)
  constructor
  · intro kept
    obtain ⟨t, ht, wrote, narrowed⟩ := exec_narrow_of_admitted order (admitted_of_no_precondition_violated set kept)
    exact ⟨t, ht, wrote, fun i hi => narrowed.lowHalf other hi⟩
  · intro kept
    obtain ⟨t, ht, wrote, widened⟩ := exec_widen_of_admitted order (admitted_of_no_precondition_violated set kept)
    exact ⟨t, ht, wrote, fun i hi => widened.lowHalf other hi⟩

end Sys2Proof.Machine
end

section
/-! INIT by a truthful host (spec/40_init.md rules R101, R103; O23). -/

namespace Sys2Proof.Machine

/-- A truthful probe makes MODE the order of the host that presents it. -/
theorem exec_init_hostProbe (o : ByteOrder) (s : State) (uninit : s.mode = .uninit) :
    exec (.init (hostProbe o)) s = .next ((s.withMode (Mode.ofOrder o)).finish 0#32) := by
  cases o with
  | littleEndian => exact exec_init_littleEndian s uninit
  | bigEndian => exact exec_init_bigEndian s uninit

/-- Settles O23: the two images are computed, and INIT accepts both (`exec_init_hostProbe`). -/
theorem truthfulProbeRecordsTheHostOrder : Obligations.TruthfulProbeRecordsTheHostOrder :=
  ⟨rfl, rfl, fun o s uninit => ⟨_, exec_init_hostProbe o s uninit, rfl, rfl⟩⟩

end Sys2Proof.Machine
end

section
/-! The laws of `narrow` and `widen` (spec/41_float_truncator.md rule R115; O26). -/

namespace Sys2Proof.Machine

/-- Law (a): the round trip clears the lower half. -/
theorem widen_narrow (f : Word) : widen (narrow f) = f &&& 0xFFFF0000#32 := by
  refine (append_eq_iff_slices (narrow f) 0#16 _).mpr ⟨?low, ?high⟩
  case low =>
    rw [BitVec.extractLsb'_and]
    exact BitVec.and_zero.symm
  case high =>
    rw [BitVec.extractLsb'_and]
    exact BitVec.and_allOnes.symm

/-- Law (d): the round trip is exact when the lower half is zero, and only then. -/
theorem widen_narrow_eq_iff_lowHalf (f : Word) : widen (narrow f) = f ↔ f.extractLsb' 0 16 = 0#16 := by
  exact (append_eq_iff_slices (narrow f) 0#16 f).trans ⟨fun ⟨low, _⟩ => low.symm, fun low => ⟨low.symm, rfl⟩⟩

/-- The round trip clears the lower sixteen mantissa bits, which never makes the mantissa larger. -/
theorem toNat_f32Frac_widen_narrow_le (f : Word) : (f32Frac (widen (narrow f))).toNat ≤ (f32Frac f).toNat := by
  rw [toNat_f32Frac_widen, halfFrac_narrow, BitVec.extractLsb'_toNat, Nat.shiftRight_eq_div_pow]
  calc (f32Frac f).toNat / 2 ^ 16 % 2 ^ 7 * 2 ^ 16
      ≤ (f32Frac f).toNat / 2 ^ 16 * 2 ^ 16 := Nat.mul_le_mul_right _ (Nat.mod_le ..)
    _ ≤ (f32Frac f).toNat := Nat.div_mul_le_self ..

/-- With the same exponent field, a smaller mantissa is a smaller magnitude (R11). -/
theorem f32Magnitude_le_of_frac_le {f g : Word} (exp : f32Exp f = f32Exp g)
    (frac : (f32Frac f).toNat ≤ (f32Frac g).toNat) : f32Magnitude f ≤ f32Magnitude g := by
  by_cases he : f32Exp g = 0#8
  · rwa [f32Magnitude_of_exp_zero (exp.trans he), f32Magnitude_of_exp_zero he]
  · rw [f32Magnitude_of_exp_ne_zero (exp ▸ he), f32Magnitude_of_exp_ne_zero he, exp]
    exact Nat.mul_le_mul_right _ (Nat.add_le_add_left frac _)

/-- Law (e), the magnitude: the round trip keeps the exponent field and never raises the mantissa. -/
theorem f32Magnitude_widen_narrow_le (f : Word) : f32Magnitude (widen (narrow f)) ≤ f32Magnitude f :=
  f32Magnitude_le_of_frac_le (by rw [f32Exp_widen, halfExp_narrow]) (toNat_f32Frac_widen_narrow_le f)

/-- Settles O26: (b) is `narrow_widen`, which gives (c) at a narrowed half; the others are the laws above. -/
theorem narrowAndWidenLaws : Obligations.NarrowAndWidenLaws :=
  ⟨widen_narrow, narrow_widen, fun f => narrow_widen (narrow f), widen_narrow_eq_iff_lowHalf,
    fun f _ => ⟨f32Magnitude_widen_narrow_le f, by rw [f32Sign_widen, halfSign_narrow]⟩⟩

end Sys2Proof.Machine
end

section
/-! Bulk commands under the host's own order (spec/20_memory.md section 1, spec/41_float_truncator.md section 3; O34)
and repeated (spec/20_memory.md section 2; O37). -/

namespace Sys2Proof.Machine

/-! ### The mux in the order of the data (R42) -/

/-- A word in the order `o`, cut where the mux of that order cuts it: the half at `hiOff o` is the upper one. -/
theorem val32_halves_of_own_order (o : ByteOrder) (byte : Nat → Byte) :
    val32 o (byte 0) (byte 1) (byte 2) (byte 3) =
      val16 o (byte (hiOff o)) (byte (hiOff o + 1)) ++ val16 o (byte (loOff o)) (byte (loOff o + 1)) := by
  cases o with
  | littleEndian => exact BitVec.append_assoc
  | bigEndian => exact BitVec.append_assoc

section
variable {o : ByteOrder} {src dst n i : Nat} {m m' : Memory}

/-- Read in the order of the mux, a narrowed element is its source narrowed. -/
theorem Narrowed.upperHalf (h : Narrowed o src dst n m m') (hi : i < n) :
    val16 o (m'.readByte (dst + 2 * i)) (m'.readByte (dst + 2 * i + 1)) =
      narrow (val32 o (m.readByte (src + 4 * i)) (m.readByte (src + 4 * i + 1)) (m.readByte (src + 4 * i + 2))
        (m.readByte (src + 4 * i + 3))) := by
  have first := h.copied i 0 hi (by decide)
  have second := h.copied i 1 hi (by decide)
  have halves := val32_halves_of_own_order o fun k => m.readByte (src + 4 * i + k)
  simp only [Nat.add_zero, ← Nat.add_assoc] at first halves
  rw [halves, narrow, BitVec.extractLsb'_append_eq_left, first, second]

/-- Read in the order of the mux, a widened element is its source widened. -/
theorem Widened.upperHalf (h : Widened o src dst n m m') (hi : i < n) :
    val32 o (m'.readByte (dst + 4 * i)) (m'.readByte (dst + 4 * i + 1)) (m'.readByte (dst + 4 * i + 2))
        (m'.readByte (dst + 4 * i + 3)) =
      widen (val16 o (m.readByte (src + 2 * i)) (m.readByte (src + 2 * i + 1))) := by
  have first := h.placed i 0 hi (by decide)
  have second := h.placed i 1 hi (by decide)
  have firstZero := h.zeroed i 0 hi (by decide)
  have secondZero := h.zeroed i 1 hi (by decide)
  have halves := val32_halves_of_own_order o fun k => m'.readByte (dst + 4 * i + k)
  have zeros : val16 o 0x00#8 0x00#8 = 0x0000#16 := by cases o <;> rfl
  simp only [Nat.add_zero, ← Nat.add_assoc] at first firstZero halves
  rw [halves, first, second, firstZero, secondZero, zeros, widen]

end

/-- Settles O34: the bulk command converts in the host's order, in which its elements are those the scalar command
answers (`Narrowed.upperHalf`, `Widened.upperHalf`). -/
theorem bulkAgreesWithScalarWhenModeIsHostOrder : Obligations.BulkAgreesWithScalarWhenModeIsHostOrder := by
  intro src srcLen dst dstLen count s t o i order hi
  have set : s.mode ≠ .uninit := ne_of_eq_of_ne order (Mode.ofOrder_ne_uninit o)
  constructor
  · intro ht wrote
    obtain ⟨_, narrowed⟩ := narrowed_of_exec order ht wrote
    rw [narrowed.upperHalf hi]
    exact ⟨_, rfl, gated_answers _ s set⟩
  · intro ht wrote
    obtain ⟨_, widened⟩ := widened_of_exec order ht wrote
    rw [widened.upperHalf hi]
    exact ⟨_, rfl, gated_answers _ s set⟩

/-! ### The same command again -/

/-- Admission sees nothing of what a bulk command writes (R51). -/
theorem WroteOnlyMemory.admission_eq {s t : State} (h : WroteOnlyMemory s t) : t.admission = s.admission :=
  have alike : (s.withMem t.mem).Alike t := ⟨h.mode_eq, rfl, (congrArg State.params h :)⟩
  alike.admission

/-- A bulk command that ends OK has passed the gate (R104). -/
theorem order_of_bulk_wroteOnlyMemory {s : State} {ss ds : Nat} {src srcLen dst dstLen count : Word}
    {convert : ByteOrder → Memory → Memory}
    (wrote : WroteOnlyMemory s (s.bulk ss ds src srcLen dst dstLen count convert)) :
    ∃ o, s.mode = Mode.ofOrder o := by
  rcases s.bulk_cases ss ds src srcLen dst dstLen count convert with ⟨_, refused⟩ | ⟨o, order, _⟩
  · exact absurd (refused ▸ wrote) (not_wroteOnlyMemory_raise s _)
  · exact ⟨o, order⟩

section
variable {o : ByteOrder} {src dst n : Nat} {m m' m'' : Memory}

/-- NARROW again, on the source it left as it was, writes the same bytes. -/
theorem Narrowed.again (first : Narrowed o src dst n m m') (second : Narrowed o src dst n m' m'')
    (apart : n = 0 ∨ dst + 2 * n ≤ src ∨ src + 4 * n ≤ dst) (a : Nat) : m''.readByte a = m'.readByte a := by
  by_cases inside : dst ≤ a ∧ a < dst + 2 * n
  · obtain ⟨i, k, hi, hk, rfl⟩ : ∃ i k, i < n ∧ k < 2 ∧ a = dst + 2 * i + k :=
      ⟨(a - dst) / 2, (a - dst) % 2, by omega, by omega, by omega⟩
    have offset := hiOff_cases o
    calc m''.readByte (dst + 2 * i + k)
        = m'.readByte (src + 4 * i + hiOff o + k) := second.copied i k hi hk
      _ = m.readByte (src + 4 * i + hiOff o + k) := first.outside _ (by omega)
      _ = m'.readByte (dst + 2 * i + k) := (first.copied i k hi hk).symm
  · exact second.outside a (by omega)

/-- An address inside an element of four bytes is in one of its two halves. -/
theorem exists_half_offset (o : ByteOrder) {a : Nat} (inside : dst ≤ a ∧ a < dst + 4 * n) :
    ∃ i k, i < n ∧ k < 2 ∧ (a = dst + 4 * i + hiOff o + k ∨ a = dst + 4 * i + loOff o + k) := by
  have offset := hiOff_cases o
  exact ⟨(a - dst) / 4, (a - dst) % 2, by omega, by omega, by omega⟩

/-- WIDEN again, on the source it left as it was, writes the same bytes. -/
theorem Widened.again (first : Widened o src dst n m m') (second : Widened o src dst n m' m'')
    (apart : n = 0 ∨ dst + 4 * n ≤ src ∨ src + 2 * n ≤ dst) (a : Nat) : m''.readByte a = m'.readByte a := by
  by_cases inside : dst ≤ a ∧ a < dst + 4 * n
  · obtain ⟨i, k, hi, hk, rfl | rfl⟩ := exists_half_offset o inside
    · calc m''.readByte (dst + 4 * i + hiOff o + k)
          = m'.readByte (src + 2 * i + k) := second.placed i k hi hk
        _ = m.readByte (src + 2 * i + k) := first.source apart i k hi hk
        _ = m'.readByte (dst + 4 * i + hiOff o + k) := (first.placed i k hi hk).symm
    · exact (second.zeroed i k hi hk).trans (first.zeroed i k hi hk).symm
  · exact second.outside a (by omega)

end

/-- Settles O37: the command that ended OK passed the gate and admission, neither of which sees MEM, so it is admitted
again; what it then writes is there already (`Narrowed.again`, `Widened.again`). -/
theorem repeatedBulkCommandIsIdempotent : Obligations.RepeatedBulkCommandIsIdempotent := by
  rintro src srcLen dst dstLen count i s t (rfl | rfl) ht wrote
  · obtain ⟨o, order⟩ := order_of_bulk_wroteOnlyMemory (Host.Outcome.next.inj ht ▸ wrote)
    obtain ⟨admitted, first⟩ := narrowed_of_exec order ht wrote
    obtain ⟨_, _, _, apart⟩ := (s.admission_eq_none ..).mp admitted
    rw [← wrote.admission_eq] at admitted
    obtain ⟨u, hu, wrote', second⟩ := exec_narrow_of_admitted (wrote.mode_eq.trans order) admitted
    exact ⟨u, hu, wrote', first.again second apart⟩
  · obtain ⟨o, order⟩ := order_of_bulk_wroteOnlyMemory (Host.Outcome.next.inj ht ▸ wrote)
    obtain ⟨admitted, first⟩ := widened_of_exec order ht wrote
    obtain ⟨_, _, _, apart⟩ := (s.admission_eq_none ..).mp admitted
    rw [← wrote.admission_eq] at admitted
    obtain ⟨u, hu, wrote', second⟩ := exec_widen_of_admitted (wrote.mode_eq.trans order) admitted
    exact ⟨u, hu, wrote', first.again second apart⟩

end Sys2Proof.Machine
end

section
/-! FROMINT against CENC (spec/42_int_wrappers.md section 1; O40): an integer of at most eight significant bits is
packed alike in the upper half of a Float32 pattern and in a CrypticInt16Value. -/

namespace Sys2Proof.Machine

/-- Narrowing keeps sign and exponent field and the upper seven mantissa bits (R111). -/
theorem narrow_f32Pack (s : Bool) (e : BitVec 8) (m : BitVec 23) :
    narrow (f32Pack s e m) = halfPack s e (m.extractLsb' 16 7) := by
  rw [← halfPack_fields (narrow (f32Pack s e m)), halfSign_narrow, halfExp_narrow, halfFrac_narrow, f32Sign_f32Pack,
    f32Exp_f32Pack, f32Frac_f32Pack]

/-- A mantissa of seven bits, left-aligned in 23, comes back from the upper seven. -/
theorem extractLsb'_leftAligned {a : Nat} (ha : a < 2 ^ 7) :
    (BitVec.ofNat 23 (a * 2 ^ 16)).extractLsb' 16 7 = BitVec.ofNat 7 a := by
  apply BitVec.eq_of_toNat_eq
  rw [BitVec.extractLsb'_toNat, BitVec.toNat_ofNat, BitVec.toNat_ofNat, Nat.shiftRight_eq_div_pow,
    Nat.mod_eq_of_lt (a := a * 2 ^ 16) (by omega), Nat.mul_div_cancel _ (by decide)]

/-- R141 against R161: a magnitude of at most eight bits has the same mantissa in both formats, up to 16 zeros. -/
theorem significand_of_eight_bits {m : Nat} (h1 : 1 ≤ m) (h255 : m ≤ 255) :
    m * 2 ^ (23 - hsb m) - 2 ^ 23 = (m - 2 ^ hsb m) * 2 ^ (7 - hsb m) * 2 ^ 16 := by
  obtain ⟨hp, _, _⟩ := hsb_bounds m h1 h255
  have aligned : 2 ^ hsb m * 2 ^ (23 - hsb m) = 2 ^ 23 := by rw [← Nat.pow_add]; congr 1; omega
  rw [← aligned, ← Nat.sub_mul, Nat.mul_assoc, ← Nat.pow_add]
  congr 2
  omega

/-- FROMINT's pattern of an integer of magnitude at most 255 is CENC's, under every rounding. -/
theorem narrow_i2f_eq_cencPattern (rnd : Rounding) {i : Int} (h255 : i.natAbs ≤ 255) :
    narrow (i2f rnd i) = cencPattern i := by
  by_cases h0 : i = 0
  · rw [h0, i2f_zero]
    rfl
  · have h1 : 1 ≤ i.natAbs := by omega
    obtain ⟨hp, _, upper⟩ := hsb_bounds i.natAbs h1 h255
    rw [i2f_of_short rnd h0 (by omega), cencPattern_of_ne_zero i h0, normalPattern, significand_of_eight_bits h1 h255,
      narrow_f32Pack, extractLsb'_leftAligned (alignLeft_lt _ _ hp (by omega)), pack]

/-- Settles O40: both commands answer in range, with the same pattern (`narrow_i2f_eq_cencPattern`). -/
theorem fromintAgreesWithCenc : Obligations.FromintAgreesWithCenc := by
  intro n s set inRange
  have fromint := exec_fromint_of_set n s set
  rw [narrow_i2f_eq_cencPattern s.params.rounding inRange] at fromint
  exact ⟨_, _, fromint, exec_cenc_inRange n s inRange, rfl⟩

end Sys2Proof.Machine
end
